-- ==== Sys2Proof/Word.lean ====
section
/-!
DEFINITION. The word types of the LS-8 CORE (`spec/00_scope.md` R4, R5; `spec/10_state.md` R14, R20).
Every register, memory cell, operand byte and ALU value is an unsigned 8-bit number; `PC` and `FINFO` are 9 bits wide.
-/

namespace Sys2Proof

/-- An unsigned 8-bit value: register, memory cell, operand byte, ALU operand and result (R5, `XLEN` of R4). -/
abbrev Byte := BitVec 8

/-- A 9-bit value: `PC` (R14, values 0 to `Config.pcMax`) and `FINFO` (R20). -/
abbrev PcWord := BitVec 9

end Sys2Proof
end

