-- ==== Sys2Proof/Config.lean ====
section
/-!
DEFINITION. The parameters of the LS-8 CORE that `spec/00_scope.md` R4 marks as decisions, at the defaults of
`spec/92_eei_decisions.md`. What R4 says the source fixes (8-bit words, 8 registers, 256 cells, R7 as SP, PC_RESET) is
written where it is used. `OPCODE_MAP` is a field that the decoder, the fetch and the single step take as an argument: this
file gives its type, and its default stands beside the decoder (`Sys2Proof.opcodeMap`, Decode.lean). There is no free value:
the spec decides every open point.
-/

namespace Sys2Proof

/-- The 13 mnemonics, the domain of the parameter `OPCODE_MAP` (R4, `spec/30_encoding.md` R42). -/
inductive Mnemonic where
  | hlt | ldi | prn | add | mul | cmp | push | pop | call | ret | jmp | jeq | jne
  deriving DecidableEq, Repr

/-- The mnemonics in the order of the opcode table (R42). -/
def Mnemonic.all : List Mnemonic :=
  [.hlt, .ldi, .prn, .add, .mul, .cmp, .push, .pop, .call, .ret, .jmp, .jeq, .jne]

/-- The type of the configuration field `OPCODE_MAP`: a byte for each mnemonic (R4, R42). -/
abbrev OpcodeMap := Mnemonic → Byte

/-- R42: "an injective map from the 13 mnemonics to bytes". -/
def OpcodeMap.Injective (om : OpcodeMap) : Prop := ∀ m n : Mnemonic, om m = om n → m = n

/-- `SP_RESET`, R7 after reset: 0xF4 (decision D2; the recorded alternative is 0x07). UNVERIFIED, unsafe: log 2. -/
def Config.spReset : Byte := 0xF4

/-- `REG_RESET`, R0 to R6 after reset: 0x00 (decision D8). UNVERIFIED, unsafe: log 3. -/
def Config.regReset : Byte := 0x00

/-- `FL_RESET`, FL after reset: 0x00 (decision D8). UNVERIFIED, unsafe: log 3. -/
def Config.flReset : Byte := 0x00

/-- `MEM_FILL`, a cell the image does not give: 0x00 (decision D9). UNVERIFIED, unsafe: log 4. -/
def Config.memFill : Byte := 0x00

/-- `PC_MAX`, the largest value PC holds: 256, "past the end of memory" (decision D4). `PcWord` is the width that holds it.
UNVERIFIED, safe: log 7. -/
def Config.pcMax : Nat := 256

/-- `CMP_CLEARS`: CMP clears the two flags it does not set (decision D3; the recorded alternative is false).
UNVERIFIED, unsafe: log 6. -/
def Config.cmpClears : Bool := true

end Sys2Proof
end

