-- ==== Sys2Proof/Syntax.lean ====
section
/-!
DEFINITION. The 13 instructions of the LS-8 CORE (`spec/30_encoding.md` R42, `spec/opcode_table.json`), one constructor a row.
An operand is the operand byte as fetched: a register operand is NOT reduced to three bits (R43(a)), because an index in
[8,255] is a legal encoding whose access raises `InvalidRegister` (`spec/10_state.md` R12).
-/

namespace Sys2Proof

/-- One instruction with its operand bytes in encoding order, op1 before op2 (R40, R42, R47). -/
inductive Instr where
  /-- HLT: halt (R53). -/
  | hlt
  /-- LDI reg, immediate (R54): op1 a register operand, op2 the immediate byte. -/
  | ldi (op1 op2 : Byte)
  /-- PRN reg (R55). -/
  | prn (op1 : Byte)
  /-- ADD regA, regB (R57). -/
  | add (op1 op2 : Byte)
  /-- MUL regA, regB (R58). -/
  | mul (op1 op2 : Byte)
  /-- CMP regA, regB (R59). -/
  | cmp (op1 op2 : Byte)
  /-- PUSH reg (R63). -/
  | push (op1 : Byte)
  /-- POP reg (R64). -/
  | pop (op1 : Byte)
  /-- CALL reg (R66). -/
  | call (op1 : Byte)
  /-- RET (R67). -/
  | ret
  /-- JMP reg (R68). -/
  | jmp (op1 : Byte)
  /-- JEQ reg (R69). -/
  | jeq (op1 : Byte)
  /-- JNE reg (R70). -/
  | jne (op1 : Byte)
  deriving DecidableEq, Repr

end Sys2Proof
end

