-- ==== Sys2Proof/Decode.lean ====
section
/-!
DEFINITION. The decoder and the encoder (`spec/30_encoding.md` R40 to R46), over every `OPCODE_MAP` and at the default one.
Decoding is by lookup of the whole opcode byte, never by bit pattern (R41); the decoder is total on any bytes and rejects by name.
-/

namespace Sys2Proof

/-! ## The opcode map (R42) -/

/-- The default `OPCODE_MAP` of R42 (decision D1: from general knowledge, not in the source). UNVERIFIED, unsafe: log 1. -/
def opcodeMap : OpcodeMap
  | .hlt => 0x01
  | .ldi => 0x82
  | .prn => 0x47
  | .add => 0xA0
  | .mul => 0xA2
  | .cmp => 0xA7
  | .push => 0x45
  | .pop => 0x46
  | .call => 0x50
  | .ret => 0x11
  | .jmp => 0x54
  | .jeq => 0x55
  | .jne => 0x56

/-- The mnemonic an opcode byte selects, by comparing all 8 bits with the values of the map (R41); `none` for an unknown
opcode (R44). -/
def lookupOpcode (om : OpcodeMap) (b : Byte) : Option Mnemonic :=
  Mnemonic.all.find? fun m => om m == b

/-- The fixed operand count of a mnemonic: format F0, F1 or F2 (R40, R42). -/
def operandCount : Mnemonic → Nat
  | .hlt => 0
  | .ldi => 2
  | .prn => 1
  | .add => 2
  | .mul => 2
  | .cmp => 2
  | .push => 1
  | .pop => 1
  | .call => 1
  | .ret => 0
  | .jmp => 1
  | .jeq => 1
  | .jne => 1

/-- The instruction of a mnemonic and its operand bytes; a format that has no op1 or op2 ignores the argument (R40, R45). -/
def assemble (m : Mnemonic) (op1 op2 : Byte) : Instr :=
  match m with
  | .hlt => .hlt
  | .ldi => .ldi op1 op2
  | .prn => .prn op1
  | .add => .add op1 op2
  | .mul => .mul op1 op2
  | .cmp => .cmp op1 op2
  | .push => .push op1
  | .pop => .pop op1
  | .call => .call op1
  | .ret => .ret
  | .jmp => .jmp op1
  | .jeq => .jeq op1
  | .jne => .jne op1

/-! ## Decoding -/

/-- Why a byte string is no instruction. -/
inductive DecodeError where
  /-- The opcode byte is none of the 13 values of the map (R44); raised by `decodeWith`, safe (the step takes
  `UnknownInstruction`, R74). -/
  | unknownOpcode (opc : Byte)
  /-- The bytes end before the instruction does, at byte number `missing` of it (0 the opcode, 1 op1, 2 op2); raised by
  `decodeWith`, safe (the step takes `OutOfRange`, R46, R73). -/
  | truncated (missing : Nat)
  deriving DecidableEq, Repr

/-- Decode one instruction from bytes at ascending addresses, opcode first (R28, R40, R41); answers the instruction and the
bytes after it. An unknown opcode is reported whatever follows it (R44, R46). -/
def decodeWith (om : OpcodeMap) : List Byte → Except DecodeError (Instr × List Byte)
  | [] => .error (.truncated 0)
  | opc :: bytes =>
    match lookupOpcode om opc with
    | none => .error (.unknownOpcode opc)
    | some m =>
      match operandCount m, bytes with
      | 0, rest => .ok (assemble m 0 0, rest)
      | _ + 1, [] => .error (.truncated 1)
      | 1, op1 :: rest => .ok (assemble m op1 0, rest)
      | _ + 2, [_] => .error (.truncated 2)
      | _ + 2, op1 :: op2 :: rest => .ok (assemble m op1 op2, rest)

/-- The decoder at the default `OPCODE_MAP`. -/
def decode (bytes : List Byte) : Except DecodeError (Instr × List Byte) := decodeWith opcodeMap bytes

/-! ## Encoding -/

/-- The mnemonic of an instruction (R42). -/
def Instr.mnemonic : Instr → Mnemonic
  | .hlt => .hlt
  | .ldi _ _ => .ldi
  | .prn _ => .prn
  | .add _ _ => .add
  | .mul _ _ => .mul
  | .cmp _ _ => .cmp
  | .push _ => .push
  | .pop _ => .pop
  | .call _ => .call
  | .ret => .ret
  | .jmp _ => .jmp
  | .jeq _ => .jeq
  | .jne _ => .jne

/-- The operand bytes of an instruction in encoding order (R40, R42). -/
def Instr.operands : Instr → List Byte
  | .hlt => []
  | .ldi op1 op2 => [op1, op2]
  | .prn op1 => [op1]
  | .add op1 op2 => [op1, op2]
  | .mul op1 op2 => [op1, op2]
  | .cmp op1 op2 => [op1, op2]
  | .push op1 => [op1]
  | .pop op1 => [op1]
  | .call op1 => [op1]
  | .ret => []
  | .jmp op1 => [op1]
  | .jeq op1 => [op1]
  | .jne op1 => [op1]

/-- The bytes of an instruction: its opcode byte, then its operand bytes (R40). -/
def encodeWith (om : OpcodeMap) (i : Instr) : List Byte := om i.mnemonic :: i.operands

/-- The encoder at the default `OPCODE_MAP`. -/
def encode (i : Instr) : List Byte := encodeWith opcodeMap i

/-- The length of an instruction in bytes: `1 + operand count` (R40, C2). -/
def Instr.length (i : Instr) : Nat := 1 + operandCount i.mnemonic

/-! ## Instructions given as one number, as `spec/opcode_table.json` numbers bits -/

/-- The three bytes (the longest instruction) of the number `w` cut to `nbits` bits: bits 7..0 are the opcode byte at the
lowest address, bits 15..8 op1, bits 23..16 op2 (R28); bits at `nbits` and above are 0. -/
def wordBytes (nbits w : Nat) : List Byte :=
  let v := w % 2 ^ nbits
  [BitVec.ofNat 8 v, BitVec.ofNat 8 (v / 256), BitVec.ofNat 8 (v / 65536)]

/-- What the decoder reads from an instruction given as one number. -/
def decodeTableWord (nbits w : Nat) : Option Instr :=
  match decode (wordBytes nbits w) with
  | .ok (i, _) => some i
  | .error _ => none

end Sys2Proof
end

