-- ==== Sys2Proof/Machine/State.lean ====
section
/-!
DEFINITION. The state of the LS-8 CORE as plain data: every element of `spec/10_state.md` R10 and nothing else (R22), the
faults of `spec/60_exceptions.md` R72, the reasons a step can stop, and the state after reset (R23).
-/

namespace Sys2Proof.Machine

/-- `STATUS`, the engine's run state (R19). -/
inductive Status where
  | running
  | halted
  | faulted
  deriving DecidableEq, Repr

/-- `FCAUSE`, the cause of the fault that stopped the core (R20, R72); its 2-bit codes are `FCause.code`. -/
inductive FCause where
  /-- 0: no fault since reset. -/
  | none
  /-- 1: `OutOfRange`. -/
  | outOfRange
  /-- 2: `UnknownInstruction`. -/
  | unknownInstruction
  /-- 3: `InvalidRegister`. -/
  | invalidRegister
  deriving DecidableEq, Repr

/-- The 2-bit code of a cause (R72, decision D21). -/
def FCause.code : FCause → BitVec 2
  | .none => 0
  | .outOfRange => 1
  | .unknownInstruction => 2
  | .invalidRegister => 3

/-- The three faults of the CORE (R72), with the value each one reports. They are TAKEN: the step answers a next state that
is FAULTED (R77, `State.takeFault`). Safe: the spec describes the entry. -/
inductive CoreFault where
  /-- A memory access at an address outside [0,255] (R73); raised by `memRead` and `memWrite`. -/
  | outOfRange (addr : Nat)
  /-- The byte fetched at `PC` is not in `OPCODE_MAP` (R74); raised by `fetch`. -/
  | unknownInstruction (opc : Byte)
  /-- A register access with an index in [8,255] (R75); raised by `regIndex`. -/
  | invalidRegister (op : Byte)
  deriving DecidableEq, Repr

/-- The reasons a step of the MODEL could stop with a fault: none. Every fault of the hardware is taken as R77 describes it and
answers a next state (log 9), so the host's outcome `fault` is never answered; safe. -/
inductive Fault where
  deriving DecidableEq, Repr

/-- The reasons the model could refuse an instruction. -/
inductive Refusal where
  /-- Raised by no arm of `exec`: the form of an instruction that has no meaning yet; safe. -/
  | notModelled (mnemonic : String)
  deriving DecidableEq, Repr

/-- RAM as (address, byte) pairs in canonical form (`Memory.wf`); a cell it does not list holds `Config.memFill`. -/
abbrev Memory := List Host.Cell

/-- The complete architectural state (R10). -/
structure State where
  /-- `x[0]` .. `x[7]`, R0 to R7; `x[7]` is SP (R11, R13). -/
  regs : Vector Byte 8
  /-- `PC`, 9 bits, values 0 to `Config.pcMax` (R14). -/
  pc : PcWord
  /-- `FL`, 0b00000LGE (R16). -/
  fl : Byte
  /-- `RAM[0]` .. `RAM[255]` (R18). -/
  ram : Memory
  /-- `STATUS` (R19). -/
  status : Status
  /-- `FCAUSE` (R20). -/
  fcause : FCause
  /-- `FINFO` (R20). -/
  finfo : PcWord
  /-- `OUT`, the values printed, in program order (R21). -/
  out : List Byte
  deriving DecidableEq, Repr

/-- The state after reset (R23, R83) with no program loaded: an image of `MEM_FILL` only. `State.resetImage` is the reset with
an image (log 5). -/
def State.reset : State where
  regs := #v[Config.regReset, Config.regReset, Config.regReset, Config.regReset,
             Config.regReset, Config.regReset, Config.regReset, Config.spReset]
  pc := 0
  fl := Config.flReset
  ram := []
  status := .running
  fcause := .none
  finfo := 0
  out := []

end Sys2Proof.Machine
end

