-- ==== Sys2Proof/Machine/Ops.lean ====
section
/-!
DEFINITION. The named operations over RAM and registers, taking a fault, and how an instruction ends
(`spec/00_scope.md` R6, `spec/10_state.md` R12 to R15, `spec/20_memory.md` R24 to R26, `spec/60_exceptions.md` R77).
The spec gives no return from a fault (R79), so there is none beside the entry.
-/

namespace Sys2Proof.Machine

/-! ## Widths (R6) -/

/-- `trunc8(v) = v mod 256` (R6, R7). -/
def trunc8 (v : Nat) : Byte := BitVec.ofNat 8 v

/-- `zext_9(v)`: a byte widened with zero bits (R6). -/
def zext9 (v : Byte) : PcWord := v.setWidth 9

/-! ## RAM as a canonical list -/

/-- The byte a cell holds: the listed one, else `MEM_FILL`. -/
def Memory.read : Memory → Nat → Byte
  | [], _ => Config.memFill
  | (k, v) :: rest, a => if k = a then v else Memory.read rest a

/-- Put a byte in front of later cells, or nothing if it is what an unlisted cell holds. -/
def Memory.place (a : Nat) (v : Byte) (rest : Memory) : Memory :=
  if v = Config.memFill then rest else (a, v) :: rest

/-- Set one cell, keeping addresses rising and no listed cell equal to `MEM_FILL`. -/
def Memory.write : Memory → Nat → Byte → Memory
  | [], a, v => Memory.place a v []
  | (k, w) :: rest, a, v =>
    if a < k then Memory.place a v ((k, w) :: rest)
    else if a = k then Memory.place a v rest
    else (k, w) :: Memory.write rest a v

/-- The canonical form: addresses strictly rising and below 256 (R18), no listed cell equal to `MEM_FILL`. -/
abbrev Memory.wf (m : Memory) : Prop :=
  m.Pairwise (fun c d => c.1 < d.1) ∧ ∀ c ∈ m, c.1 < 256 ∧ c.2 ≠ Config.memFill

/-! ## Registers (R11 to R13) -/

/-- `x[r]`. -/
def State.reg (s : State) (r : Fin 8) : Byte := s.regs[r.val]

/-- `x[r] <- v`. -/
def State.setReg (s : State) (r : Fin 8) (v : Byte) : State := { s with regs := s.regs.set r.val v }

/-- `SP` is another spelling of `x[7]` (R6, R13). -/
def State.sp (s : State) : Byte := s.reg 7

/-- `x[7] <- (x[7] - 1) mod 256` (R62). -/
def State.decSp (s : State) : State := s.setReg 7 (s.sp - 1)

/-- `x[7] <- (x[7] + 1) mod 256` (R62). -/
def State.incSp (s : State) : State := s.setReg 7 (s.sp + 1)

/-! ## PC, FL, STATUS, OUT -/

/-- The sequential advance `PC <- PC + n`, a 9-bit sum; by R14 it is at most `Config.pcMax` in a step.
Log 7. -/
def State.advance (s : State) (n : PcWord) : State := { s with pc := s.pc + n }

/-- `PC <- target` for a control transfer (R65). -/
def State.setPc (s : State) (target : PcWord) : State := { s with pc := target }

/-- `FL <- v`. -/
def State.setFl (s : State) (v : Byte) : State := { s with fl := v }

/-- `STATUS <- st`. -/
def State.setStatus (s : State) (st : Status) : State := { s with status := st }

/-- `emit(v)`: append to `OUT` (R21). The append always succeeds; UNVERIFIED, unsafe: log 14. -/
def State.emit (s : State) (v : Byte) : State := { s with out := s.out ++ [v] }

/-! ## Memory access (R25, R26) -/

/-- RAM replaced. -/
def State.setRam (s : State) (m : Memory) : State := { s with ram := m }

/-- The byte at an address, for an address that exists. -/
def State.byteAt (s : State) (a : Nat) : Byte := Memory.read s.ram a

/-- `MemRead(addr, 1)`: the byte at `addr`, or `OutOfRange(addr)` outside [0,255] (R25). -/
def memRead (s : State) (addr : Nat) : Except CoreFault Byte :=
  if addr ≤ 255 then .ok (s.byteAt addr) else .error (.outOfRange addr)

/-- `MemWrite(addr, 1, v)`: store `v mod 256` at `addr`, or `OutOfRange(addr)` outside [0,255] (R26). -/
def memWrite (s : State) (addr : Nat) (v : Nat) : Except CoreFault State :=
  if addr ≤ 255 then .ok (s.setRam (Memory.write s.ram addr (trunc8 v))) else .error (.outOfRange addr)

/-! ## Faults (R72, R77) -/

/-- `FCAUSE` of a fault (R72). -/
def CoreFault.cause : CoreFault → FCause
  | .outOfRange _ => .outOfRange
  | .unknownInstruction _ => .unknownInstruction
  | .invalidRegister _ => .invalidRegister

/-- `FINFO` of a fault (R72): the low 9 bits of the address, or the byte zero-extended. Log 18, log 22. -/
def CoreFault.info : CoreFault → PcWord
  | .outOfRange addr => BitVec.ofNat 9 addr
  | .unknownInstruction opc => zext9 opc
  | .invalidRegister op => zext9 op

/-- Fault entry (R77): STATUS, FCAUSE and FINFO are written and nothing else changes. -/
def State.takeFault (s : State) (f : CoreFault) : State :=
  { s with status := .faulted, fcause := f.cause, finfo := f.info }

/-- `raise`: the step abandons the instruction and takes the fault in the state it began with (R6, R77). -/
def raise (s : State) (f : CoreFault) : Host.Outcome State Fault Refusal := .next (s.takeFault f)

/-- How an instruction that began in `s` ends: with the state it reached, or with the fault it met, every write discarded
(R50, R77). -/
def conclude (s : State) : Except CoreFault State → Host.Outcome State Fault Refusal
  | .ok t => .next t
  | .error f => raise s f

end Sys2Proof.Machine
end

