-- ==== Sys2Proof/Machine/Operands.lean ====
section
/-!
DEFINITION. The operand forms (`spec/30_encoding.md` R43), the stack's addressing mode (`spec/42_stack_push_pop.md` R62) and the
ALU's two results (`spec/41_alu_add_mul_cmp.md` R57, R58, R60).
-/

namespace Sys2Proof.Machine

/-- Access to a register operand: the byte is the index, unmasked, or `InvalidRegister(op)` in [8,255] (R12, R43(a)). -/
def regIndex (op : Byte) : Except CoreFault (Fin 8) :=
  if h : op.toNat < 8 then .ok ⟨op.toNat, h⟩ else .error (.invalidRegister op)

/-- An immediate operand: the byte itself (R43(b)). -/
def immediate (op : Byte) : Byte := op

/-- The effective address of a stack access: the 8-bit value of SP (R62), after the decrement for a write and before the
increment for a read. -/
def State.stackAddr (s : State) : Nat := s.sp.toNat

/-- The target a register holds, zero-extended to the 9 bits of PC (R65). -/
def State.target (s : State) (r : Fin 8) : PcWord := zext9 (s.reg r)

/-- The ALU's sum, `(a + b) mod 256` (R57). -/
def aluAdd (a b : Byte) : Byte := trunc8 (a.toNat + b.toNat)

/-- The ALU's product, `(a * b) mod 256` (R58). -/
def aluMul (a b : Byte) : Byte := trunc8 (a.toNat * b.toNat)

end Sys2Proof.Machine
end

