-- ==== Sys2Proof/Machine/Flags.lean ====
section
/-!
DEFINITION. The flags register `FL = 0b00000LGE` (`spec/10_state.md` R16, R17) and the one flag computation, that of CMP
(`spec/41_alu_add_mul_cmp.md` R59).
-/

namespace Sys2Proof.Machine

/-- `E`, bit 0: the last CMP found `regA = regB` (R16). -/
def flagE (fl : Byte) : Bool := fl.getLsbD 0

/-- `G`, bit 1: the last CMP found `regA > regB` (R16). -/
def flagG (fl : Byte) : Bool := fl.getLsbD 1

/-- `L`, bit 2: the last CMP found `regA < regB` (R16). -/
def flagL (fl : Byte) : Bool := fl.getLsbD 2

/-- The one bit a comparison of two unsigned bytes sets (R59). -/
def compareBit (a b : Byte) : Byte :=
  if a = b then 0b00000001
  else if a.toNat > b.toNat then 0b00000010
  else 0b00000100

/-- FL after a comparison, for either value of the parameter `CMP_CLEARS` (R59, decision D3). -/
def compareFlagsWith (clears : Bool) (old a b : Byte) : Byte :=
  if clears then compareBit a b else old ||| compareBit a b

/-- FL after a comparison (R59). Log 6. -/
def compareFlags (old a b : Byte) : Byte := compareFlagsWith Config.cmpClears old a b

end Sys2Proof.Machine
end

