-- ==== Sys2Proof/Machine/Alu.lean ====
section
/-!
DEFINITION. ADD, MUL and CMP (`spec/41_alu_add_mul_cmp.md` R56 to R59). Both operands are read before anything is written;
ADD and MUL do not touch FL (log 23), CMP touches nothing else.
-/

namespace Sys2Proof.Machine

/-- ADD regA, regB (R57). -/
def execAdd (op1 op2 : Byte) (s : State) : Host.Outcome State Fault Refusal :=
  conclude s do
    let a ← regIndex op1
    let b ← regIndex op2
    .ok ((s.setReg a (aluAdd (s.reg a) (s.reg b))).advance 3)

/-- MUL regA, regB (R58). -/
def execMul (op1 op2 : Byte) (s : State) : Host.Outcome State Fault Refusal :=
  conclude s do
    let a ← regIndex op1
    let b ← regIndex op2
    .ok ((s.setReg a (aluMul (s.reg a) (s.reg b))).advance 3)

/-- CMP regA, regB (R59). -/
def execCmp (op1 op2 : Byte) (s : State) : Host.Outcome State Fault Refusal :=
  conclude s do
    let a ← regIndex op1
    let b ← regIndex op2
    .ok ((s.setFl (compareFlags s.fl (s.reg a) (s.reg b))).advance 3)

end Sys2Proof.Machine
end

