-- ==== Sys2Proof/Machine/Basic.lean ====
section
/-!
DEFINITION. HLT, LDI and PRN (`spec/40_step_hlt_ldi_prn.md` R53 to R55). Register operands are accessed before the first
write, op1 before op2 (R52; log 10), here and in the other families.
-/

namespace Sys2Proof.Machine

/-- HLT (R53). PC advances by 1: UNVERIFIED, unsafe, log 8. -/
def execHlt (s : State) : Host.Outcome State Fault Refusal :=
  conclude s (.ok ((s.setStatus .halted).advance 1))

/-- LDI reg, immediate (R54). -/
def execLdi (op1 op2 : Byte) (s : State) : Host.Outcome State Fault Refusal :=
  conclude s do
    let r ← regIndex op1
    .ok ((s.setReg r (immediate op2)).advance 3)

/-- PRN reg (R55). -/
def execPrn (op1 : Byte) (s : State) : Host.Outcome State Fault Refusal :=
  conclude s do
    let r ← regIndex op1
    .ok ((s.emit (s.reg r)).advance 2)

end Sys2Proof.Machine
end

