-- ==== Sys2Proof/Machine/Control.lean ====
section
/-!
DEFINITION. CALL, RET, JMP, JEQ and JNE (`spec/43_control_call_ret_jmp_jeq_jne.md` R65 to R70).
-/

namespace Sys2Proof.Machine

/-- CALL reg (R66): the return address is pushed `mod 256`, and the target is read after the decrement (log 11). -/
def execCall (op1 : Byte) (s : State) : Host.Outcome State Fault Refusal :=
  conclude s do
    let r ← regIndex op1
    let s1 := s.decSp
    let s2 ← memWrite s1 s1.stackAddr ((s1.pc.toNat + 2) % 256)
    .ok (s2.setPc (s2.target r))

/-- RET (R67). -/
def execRet (s : State) : Host.Outcome State Fault Refusal :=
  conclude s do
    let v ← memRead s s.stackAddr
    .ok (s.setPc (zext9 v)).incSp

/-- JMP reg (R68). -/
def execJmp (op1 : Byte) (s : State) : Host.Outcome State Fault Refusal :=
  conclude s do
    let r ← regIndex op1
    .ok (s.setPc (s.target r))

/-- A conditional jump: the register is accessed only when the jump is taken (R52; UNVERIFIED, unsafe, log 12). -/
def jumpIf (taken : Bool) (op1 : Byte) (s : State) : Except CoreFault State :=
  if taken then do
    let r ← regIndex op1
    .ok (s.setPc (s.target r))
  else .ok (s.advance 2)

/-- JEQ reg (R69): taken when `E` is set. -/
def execJeq (op1 : Byte) (s : State) : Host.Outcome State Fault Refusal :=
  conclude s (jumpIf (flagE s.fl) op1 s)

/-- JNE reg (R70): taken when `E` is clear. -/
def execJne (op1 : Byte) (s : State) : Host.Outcome State Fault Refusal :=
  conclude s (jumpIf (!flagE s.fl) op1 s)

end Sys2Proof.Machine
end

