-- ==== Sys2Proof/Machine/Stack.lean ====
section
/-!
DEFINITION. PUSH and POP (`spec/42_stack_push_pop.md` R62 to R64). The clauses take effect in the written order and each sees
the writes of the earlier ones (R51; UNVERIFIED, unsafe, log 11), which matters when the operand is R7.
-/

namespace Sys2Proof.Machine

/-- PUSH reg (R63): the register is read after the decrement. -/
def execPush (op1 : Byte) (s : State) : Host.Outcome State Fault Refusal :=
  conclude s do
    let r ← regIndex op1
    let s1 := s.decSp
    let s2 ← memWrite s1 s1.stackAddr (s1.reg r).toNat
    .ok (s2.advance 2)

/-- POP reg (R64): the increment sees the popped value when the register is R7. -/
def execPop (op1 : Byte) (s : State) : Host.Outcome State Fault Refusal :=
  conclude s do
    let r ← regIndex op1
    let v ← memRead s s.stackAddr
    .ok ((s.setReg r v).incSp.advance 2)

end Sys2Proof.Machine
end

