-- ==== Sys2Proof/Machine/Dispatch.lean ====
section
/-!
DEFINITION. The handler of each instruction (`spec/40_step_hlt_ldi_prn.md` R50, phase 3), one arm a constructor of Instr.
-/

namespace Sys2Proof.Machine

/-- The execute phase of a step: what the instruction does to the state (R50). It does not look at STATUS; the step does
(log 19). -/
def exec (i : Instr) (s : State) : Host.Outcome State Fault Refusal :=
  match i with
  | .hlt => Sys2Proof.Machine.execHlt s
  | .ldi op1 op2 => Sys2Proof.Machine.execLdi op1 op2 s
  | .prn op1 => Sys2Proof.Machine.execPrn op1 s
  | .add op1 op2 => Sys2Proof.Machine.execAdd op1 op2 s
  | .mul op1 op2 => Sys2Proof.Machine.execMul op1 op2 s
  | .cmp op1 op2 => Sys2Proof.Machine.execCmp op1 op2 s
  | .push op1 => Sys2Proof.Machine.execPush op1 s
  | .pop op1 => Sys2Proof.Machine.execPop op1 s
  | .call op1 => Sys2Proof.Machine.execCall op1 s
  | .ret => Sys2Proof.Machine.execRet s
  | .jmp op1 => Sys2Proof.Machine.execJmp op1 s
  | .jeq op1 => Sys2Proof.Machine.execJeq op1 s
  | .jne op1 => Sys2Proof.Machine.execJne op1 s

end Sys2Proof.Machine
end

