-- ==== Sys2Proof/Machine/Fetch.lean ====
section
/-!
DEFINITION. The fetch and decode phases, the whole single step, and placing an instruction where the step fetches
(`spec/40_step_hlt_ldi_prn.md` R50, `spec/60_exceptions.md` R78). The fetch and the step are written over every `OPCODE_MAP`
(`spec/30_encoding.md` R42); `step` (Step.lean) is the step at the default map.
-/

namespace Sys2Proof.Machine

/-- Phases 1 and 2 of the step: fetch the opcode, look it up, fetch op1 and op2 by its operand count, in that order; the
first fault met is the step's (R50, R78). `PC + 1` and `PC + 2` do not wrap (R14). -/
def fetch (om : OpcodeMap) (s : State) : Except CoreFault Instr := do
  let opc ← memRead s s.pc.toNat
  match lookupOpcode om opc with
  | none => .error (.unknownInstruction opc)
  | some m =>
    let op1 ← if 1 ≤ operandCount m then memRead s (s.pc.toNat + 1) else .ok 0
    let op2 ← if operandCount m = 2 then memRead s (s.pc.toNat + 2) else .ok 0
    .ok (assemble m op1 op2)

/-- The bytes of RAM from `PC` on that an instruction can occupy: at most three, none above address 255 (R14, R40). -/
def State.codeBytes (s : State) : List Byte :=
  ((List.range 3).map fun k => s.pc.toNat + k).filterMap fun a => if a ≤ 255 then some (s.byteAt a) else none

/-- The single-step operation (R50): nothing in HALTED or FAULTED (R19); else fetch, decode and execute, or take the fault. -/
def singleStep (om : OpcodeMap) (s : State) : Host.Outcome State Fault Refusal :=
  match s.status with
  | .running =>
    match fetch om s with
    | .ok i => exec i s
    | .error f => raise s f
  | .halted => .next s
  | .faulted => .next s

/-- Store bytes at ascending addresses from `a` on, those that fall below 256. -/
def Memory.placeBytes (m : Memory) (a : Nat) : List Byte → Memory
  | [] => m
  | b :: bytes => Memory.placeBytes (if a ≤ 255 then Memory.write m a b else m) (a + 1) bytes

/-- `s` with the instruction given as one number stored at `PC`, and STATUS = RUNNING, without which no step fetches (R50;
log 5). -/
def State.placeInstr (s : State) (nbits w : Nat) : State :=
  { s with ram := Memory.placeBytes s.ram s.pc.toNat (wordBytes nbits w), status := .running }

end Sys2Proof.Machine
end

