-- ==== Sys2Proof/Machine/Step.lean ====
section
/-!
DEFINITION. The step of the machine and the placing of its next instruction, each one call of Machine/Fetch.lean.
-/

namespace Sys2Proof.Machine

/-- `Step()` (`spec/40_step_hlt_ldi_prn.md` R50) at the default `OPCODE_MAP` (log 1). -/
def step (s : State) : Host.Outcome State Fault Refusal := singleStep opcodeMap s

/-- `s` with the instruction whose bits are `w` (bits at `nbits` and above 0) stored where `step` fetches next. -/
def State.withFetchWord (s : State) (nbits w : Nat) : State := s.placeInstr nbits w

end Sys2Proof.Machine
end

