-- ==== Sys2Proof/Machine/Reset.lean ====
section
/-!
DEFINITION. The host's operation `Reset(IMAGE)` (`spec/00_scope.md` R9, `spec/70_reset_and_hazards.md` R83) and the image a
program of at most 256 bytes makes (decision D9).
-/

namespace Sys2Proof.Machine

/-- `IMAGE`: the 256 bytes RAM holds after reset (R4). -/
abbrev Image := Vector Byte 256

/-- The canonical memory that holds the given bytes at ascending addresses from `a` on. -/
def Memory.ofBytes (a : Nat) : List Byte → Memory
  | [] => []
  | b :: bytes => Memory.place a b (Memory.ofBytes (a + 1) bytes)

/-- `Reset(IMAGE)` (R83): every element at its reset value (R23), RAM equal to the image; nothing survives. -/
def State.resetImage (image : Image) : State := { State.reset with ram := Memory.ofBytes 0 image.toList }

/-- The image of a program: its bytes from address 0, then `MEM_FILL`; no image for a program longer than 256 bytes, which
is refused at load (D9, `spec/60_exceptions.md` R76). -/
def Image.ofProgram (program : List Byte) : Option Image :=
  if program.length ≤ 256 then some (Vector.ofFn fun a : Fin 256 => program.getD a.val Config.memFill) else none

end Sys2Proof.Machine
end

