-- ==== Sys2Proof/Safety.lean ====
section
/-!
DEFINITION. What counts as the end of a run (`spec/70_reset_and_hazards.md` R86) and the invariant of the machine, collected from
`spec/10_state.md` R14, R16, R18, R20 and `spec/60_exceptions.md` R72.
-/

namespace Sys2Proof.Machine

/-- A core that `Step` changes (R9). -/
abbrev State.Running (s : State) : Prop := s.status = .running

/-- The only successful end of a run (R86(a)). -/
abbrev State.Halted (s : State) : Prop := s.status = .halted

/-- An error end, never a successful one (R77, R86(b)). -/
abbrev State.Faulted (s : State) : Prop := s.status = .faulted

/-- FL holds no bit but one of E, G, L: 0x00 before the first CMP, then 0x01, 0x02 or 0x04 (R16). -/
abbrev State.FlagsOk (s : State) : Prop := s.fl = 0x00 ∨ s.fl = 0x01 ∨ s.fl = 0x02 ∨ s.fl = 0x04

/-- FCAUSE and FINFO agree with STATUS and with each other (R20, R72): no cause and 0 while not FAULTED; when FAULTED the
address past the end of memory (`PC_MAX`), a byte that is no opcode of the map, or an operand byte in [8,255]. -/
abbrev State.CauseOk (om : OpcodeMap) (s : State) : Prop :=
  (s.fcause = .none ∧ ¬ s.Faulted ∧ s.finfo = 0) ∨
  (s.fcause = .outOfRange ∧ s.Faulted ∧ s.finfo.toNat = Config.pcMax) ∨
  (s.fcause = .unknownInstruction ∧ s.Faulted ∧ s.finfo.toNat ≤ 255 ∧
    lookupOpcode om (trunc8 s.finfo.toNat) = none) ∨
  (s.fcause = .invalidRegister ∧ s.Faulted ∧ 8 ≤ s.finfo.toNat ∧ s.finfo.toNat ≤ 255)

/-- The invariant of the machine at an `OPCODE_MAP`: PC is at most `PC_MAX` (R14), RAM is canonical (the model's form of the
256 cells, log 21), FL is legal (R16), and the fault record is consistent (R20). -/
abbrev State.InvAt (om : OpcodeMap) (s : State) : Prop :=
  s.pc.toNat ≤ Config.pcMax ∧ Memory.wf s.ram ∧ s.FlagsOk ∧ s.CauseOk om

/-- The invariant of the machine at the default `OPCODE_MAP`. -/
abbrev State.Inv (s : State) : Prop := s.InvAt opcodeMap

/-- The machine at an `OPCODE_MAP` (R42): `core` with the map as an argument. -/
def coreAt (om : OpcodeMap) : Host.Core := { Sys2Proof.core with step := singleStep om }

/-- `k` steps from a state at an `OPCODE_MAP` (R42, R86). -/
def runAt (om : OpcodeMap) (k : Nat) (s : State) : Host.Outcome State Fault Refusal := (coreAt om).run k s

/-- `k` steps from a state (R86); a run from `Reset(IMAGE)` starts in `State.resetImage image`. -/
def run (k : Nat) (s : State) : Host.Outcome State Fault Refusal := Sys2Proof.core.run k s

end Sys2Proof.Machine
end

