-- ==== Sys2Proof/WellFormed.lean ====
section
/-!
DEFINITION. When an instruction's operands satisfy `spec/30_encoding.md` R43(a): every register operand is an index in [0,7].
The encoding itself admits every operand byte (R45), so the decoder and the step accept ill-formed instructions too: what
they do is the `InvalidRegister` fault of the access (`spec/10_state.md` R12), not a decoding error.
-/

namespace Sys2Proof

/-- A register operand byte names a register: it is in [0,7] (R43(a)). -/
def regOperandOk (op : Byte) : Bool := decide (op.toNat < 8)

/-- The operand bytes of an instruction that are register operands (R42, columns op1 and op2; the immediate op2 of LDI is none). -/
def Instr.registerOperands : Instr → List Byte
  | .hlt => []
  | .ldi op1 _ => [op1]
  | .prn op1 => [op1]
  | .add op1 op2 => [op1, op2]
  | .mul op1 op2 => [op1, op2]
  | .cmp op1 op2 => [op1, op2]
  | .push op1 => [op1]
  | .pop op1 => [op1]
  | .call op1 => [op1]
  | .ret => []
  | .jmp op1 => [op1]
  | .jeq op1 => [op1]
  | .jne op1 => [op1]

/-- Every register operand is an index in [0,7] (R43(a)). -/
def Instr.wf (i : Instr) : Bool := i.registerOperands.all regOperandOk

/-- The well-formedness check as a proposition. -/
abbrev Instr.WellFormed (i : Instr) : Prop := i.wf = true

end Sys2Proof
end

