-- ==== Sys2Proof/Certificates/Slice0/Obligations.lean ====
section
/-!
DEFINITION. The statements for the provers, from the numbered rules of spec/. "The byte values" are those of the default
`OPCODE_MAP` (decision D1, log 1) wherever a statement writes one out, and a faulted state is the one of R77 (decisions D6
and D21, log 9 and log 18).
-/

namespace Sys2Proof.Claims

open Sys2Proof.Machine

/-- The state a fault leaves (R77): STATUS, FCAUSE and FINFO written, everything else as it was. -/
def faulted (s : State) (cause : FCause) (info : PcWord) : State :=
  { s with status := .faulted, fcause := cause, finfo := info }

/-- The instruction at `PC` starts with the byte `opc` in a RUNNING core, and the top of memory leaves it at most `n` bytes
in all. -/
abbrev StartsWithin (s : State) (opc : Byte) (n : Nat) : Prop :=
  s.Running ∧ s.pc.toNat ≤ 255 ∧ 256 ≤ s.pc.toNat + n ∧ s.byteAt s.pc.toNat = opc

/-- Running off the top of memory while fetching: the instruction that starts with `opc` at `PC` and does not fit faults with
`OutOfRange(256)` (R46, R78). -/
def FetchFaults (opc : Byte) (n : Nat) : Prop :=
  ∀ s : State, StartsWithin s opc n → step s = .next (faulted s .outOfRange 256)

/-- The byte at `a` after `b` was stored at address `x`. -/
def byteAfter (s : State) (x : Nat) (b : Byte) (a : Nat) : Byte := if a = x then b else s.byteAt a

/-- What a fetch at `PC` does when memory holds the bytes `mem`: the opcode at `PC` is looked up, and its operand bytes are those
at `PC + 1` and `PC + 2`, or an operand byte lies at 256 (R46, R50, R78). -/
def fetchFrom (om : OpcodeMap) (pc : Nat) (mem : Nat → Byte) : Except CoreFault Instr :=
  match lookupOpcode om (mem pc) with
  | none => .error (.unknownInstruction (mem pc))
  | some m =>
    if pc + operandCount m > 255 then .error (.outOfRange 256) else .ok (assemble m (mem (pc + 1)) (mem (pc + 2)))

end Sys2Proof.Claims

open Sys2Proof Sys2Proof.Machine Sys2Proof.Claims

/-! ## Encoding -/

/-- Section 2 of 30_encoding.md (R42): the 13 opcode bytes, each with its operand bytes, decode to their instructions. The byte
values are decision D1 (log 1): the spec's choice from general knowledge. -/
def Obligations.OpcodeBytesDecodeToTheirInstructions : Prop :=
  ∀ (a b : Byte) (rest : List Byte),
    decode (0x01 :: rest) = .ok (.hlt, rest) ∧
    decode (0x82 :: a :: b :: rest) = .ok (.ldi a b, rest) ∧
    decode (0x47 :: a :: rest) = .ok (.prn a, rest) ∧
    decode (0xA0 :: a :: b :: rest) = .ok (.add a b, rest) ∧
    decode (0xA2 :: a :: b :: rest) = .ok (.mul a b, rest) ∧
    decode (0xA7 :: a :: b :: rest) = .ok (.cmp a b, rest) ∧
    decode (0x45 :: a :: rest) = .ok (.push a, rest) ∧
    decode (0x46 :: a :: rest) = .ok (.pop a, rest) ∧
    decode (0x50 :: a :: rest) = .ok (.call a, rest) ∧
    decode (0x11 :: rest) = .ok (.ret, rest) ∧
    decode (0x54 :: a :: rest) = .ok (.jmp a, rest) ∧
    decode (0x55 :: a :: rest) = .ok (.jeq a, rest) ∧
    decode (0x56 :: a :: rest) = .ok (.jne a, rest)

/-- Sections 1 and 2 of 30_encoding.md (R40 to R43): for EVERY injective opcode map, decoding an encoded instruction gives it
back, with every operand byte and whatever follows it. -/
def Obligations.DecodeInvertsEncodeForEveryMap : Prop :=
  ∀ om : OpcodeMap, om.Injective → ∀ (i : Instr) (rest : List Byte),
    decodeWith om (encodeWith om i ++ rest) = .ok (i, rest)

/-- Sections 1 and 2 of 30_encoding.md (R40, R41): the only bytes that decode to an instruction are its encoding, for every
opcode map; no other byte string means it. -/
def Obligations.DecodedBytesAreTheEncoding : Prop :=
  ∀ (om : OpcodeMap) (bytes : List Byte) (i : Instr) (rest : List Byte),
    decodeWith om bytes = .ok (i, rest) → bytes = encodeWith om i ++ rest

/-- R44: every byte not in `OPCODE_MAP`, 243 of the 256, is an unknown opcode: the decoder rejects it whatever follows, and the
step takes `UnknownInstruction` with no operand fetched; 0x00 is one of them. -/
def Obligations.UnknownOpcodesAreRejected : Prop :=
  ((List.range 256).filter fun n => (lookupOpcode opcodeMap (BitVec.ofNat 8 n)).isNone).length = 243 ∧
  (∀ m : Mnemonic, opcodeMap m ≠ 0x00) ∧
  (∀ (opc : Byte) (rest : List Byte), (∀ m : Mnemonic, opcodeMap m ≠ opc) →
    decode (opc :: rest) = .error (.unknownOpcode opc)) ∧
  ∀ (s : State) (opc : Byte), s.Running → s.pc.toNat ≤ 255 → s.byteAt s.pc.toNat = opc →
    (∀ m : Mnemonic, opcodeMap m ≠ opc) → step s = .next (faulted s .unknownInstruction (opc.setWidth 9))

/-! ## The step -/

/-- Section 1 of 40_step_hlt_ldi_prn.md (R50): when the bytes at `PC` decode to an instruction, well formed or not, a RUNNING
core's step is `exec` of it, with nothing around it. -/
def Obligations.StepRunsTheDecodedInstruction : Prop :=
  ∀ (s : State) (i : Instr) (rest : List Byte),
    s.Running → decode s.codeBytes = .ok (i, rest) → step s = exec i s

/-- Section 1 of 40_step_hlt_ldi_prn.md (R50): the step, which fetches byte by byte, is the decoder run on the bytes of RAM from
`PC` to the top of memory; what the decoder rejects is the fault taken. -/
def Obligations.StepRefinesTheDecoder : Prop :=
  ∀ s : State, s.Running → s.pc.toNat ≤ 256 →
    match decode s.codeBytes with
    | .ok (i, _) => step s = exec i s
    | .error (.unknownOpcode opc) => step s = .next (faulted s .unknownInstruction (opc.setWidth 9))
    | .error (.truncated _) => step s = .next (faulted s .outOfRange 256)

/-- Section 2 of 60_exceptions.md (R78, decision D7, log 10): the order in which a step meets faults. Opcode fetch, unknown
opcode (even at 255), operand fetch (before any index is checked), then the index of op1, then that of op2. -/
def Obligations.FaultsAreMetInStepOrder : Prop :=
  (∀ s : State, s.Running → s.pc.toNat ≤ 256 →
    step s =
      if s.pc.toNat = 256 then .next (faulted s .outOfRange 256)
      else match lookupOpcode opcodeMap (s.byteAt s.pc.toNat) with
        | none => .next (faulted s .unknownInstruction ((s.byteAt s.pc.toNat).setWidth 9))
        | some m =>
          if s.pc.toNat + operandCount m > 255 then .next (faulted s .outOfRange 256)
          else exec (assemble m (s.byteAt (s.pc.toNat + 1)) (s.byteAt (s.pc.toNat + 2))) s) ∧
  ∀ (s : State) (a b : Byte), 7 < a.toNat → 7 < b.toNat →
    exec (.add a b) s = .next (faulted s .invalidRegister (a.setWidth 9)) ∧
    exec (.mul a b) s = .next (faulted s .invalidRegister (a.setWidth 9)) ∧
    exec (.cmp a b) s = .next (faulted s .invalidRegister (a.setWidth 9))

/-- Sections 6 of 10_state.md and 2 of 60_exceptions.md (R19, R79): HALTED and FAULTED are terminal; a step, and any number of
steps, changes nothing. -/
def Obligations.TerminalStatesNeverChange : Prop :=
  ∀ s : State, ¬ s.Running → step s = .next s ∧ ∀ k : Nat, run k s = .next s

/-- Section 2 of 60_exceptions.md (R77, decision D6, log 9): faults are precise. Whatever a RUNNING core's step does, if it ends
FAULTED then it changed STATUS, FCAUSE and FINFO and nothing else, and FCAUSE names a cause. -/
def Obligations.FaultsArePrecise : Prop :=
  ∀ s t : State, s.Running → step s = .next t → t.Faulted →
    t = faulted s t.fcause t.finfo ∧ t.fcause ≠ .none

/-- Section 1 of 60_exceptions.md (R72, decision D21, log 18): what each fault leaves in STATUS, in the 2-bit code of FCAUSE and in
FINFO, with PC and everything else as it was. -/
def Obligations.FaultCodesAndInfo : Prop :=
  ∀ s : State,
    (s.takeFault (.outOfRange 256) = { s with status := .faulted, fcause := .outOfRange, finfo := 256 } ∧
      FCause.outOfRange.code = 1) ∧
    (∀ opc : Byte, s.takeFault (.unknownInstruction opc) =
        { s with status := .faulted, fcause := .unknownInstruction, finfo := BitVec.ofNat 9 opc.toNat } ∧
      FCause.unknownInstruction.code = 2) ∧
    (∀ op : Byte, s.takeFault (.invalidRegister op) =
        { s with status := .faulted, fcause := .invalidRegister, finfo := BitVec.ofNat 9 op.toNat } ∧
      FCause.invalidRegister.code = 3) ∧
    ∀ c : FCause, c.code = 0 ↔ c = .none

/-- Section 6 of 10_state.md (R19) and section 2 of 40_step_hlt_ldi_prn.md (R53): a RUNNING core halts exactly on the HLT opcode.
That PC advances by 1 is decision D5 (log 8). -/
def Obligations.OnlyHltHalts : Prop :=
  ∀ s t : State, s.Running → step s = .next t →
    (t.Halted ↔ s.pc.toNat ≤ 255 ∧ s.byteAt s.pc.toNat = opcodeMap .hlt) ∧
    (t.Halted → t = { s with status := .halted, pc := s.pc + 1 })

/-- Section 3 of 70_reset_and_hazards.md (R88, decision D14, log 15): a stepped core always completes its step. That no path ends
in the host's outcome fault or refused is the model's form of outcome and not the spec's (log 9, DESIGN CHOICE), and so is running
`exec` in a state that is not RUNNING (log 19, DESIGN CHOICE). -/
def Obligations.EveryStepCompletes : Prop :=
  (∀ (i : Instr) (s : State), ∃ t, exec i s = .next t) ∧
  (∀ s : State, ∃ t, step s = .next t) ∧
  ∀ (k : Nat) (s : State), ∃ t, run k s = .next t

/-! ## HLT, LDI, PRN -/

/-- Section 2 of 40_step_hlt_ldi_prn.md (R53): HLT sets STATUS to HALTED. That PC advances by 1, to 256 at address 255, is
decision D5 (log 8). -/
def Obligations.HltHalts : Prop :=
  ∀ s : State, exec .hlt s = .next { s with status := .halted, pc := s.pc + 1 }

/-- R54: LDI. -/
def Obligations.LdiLoadsTheImmediate : Prop :=
  (∀ (op1 op2 : Byte) (rest : List Byte), decode (0x82 :: op1 :: op2 :: rest) = .ok (.ldi op1 op2, rest)) ∧
  (∀ (op1 op2 : Byte) (s : State) (h : op1.toNat < 8),
    exec (.ldi op1 op2) s = .next { s with regs := s.regs.set op1.toNat op2, pc := s.pc + 3 }) ∧
  (∀ (op1 op2 : Byte) (s : State), 7 < op1.toNat →
    exec (.ldi op1 op2) s = .next (faulted s .invalidRegister (op1.setWidth 9))) ∧
  FetchFaults 0x82 2 ∧
  ∀ (op1 op2 : Byte) (s : State), op1.toNat < 8 →
    ∃ t u, exec (.ldi op1 op2) s = .next t ∧ exec (.prn op1) t = .next u ∧ u.out = s.out ++ [op2]

/-- R55: PRN. -/
def Obligations.PrnEmitsTheRegister : Prop :=
  (∀ (op1 : Byte) (rest : List Byte), decode (0x47 :: op1 :: rest) = .ok (.prn op1, rest)) ∧
  (∀ (op1 : Byte) (s : State) (h : op1.toNat < 8),
    exec (.prn op1) s = .next { s with out := s.out ++ [s.regs[op1.toNat]], pc := s.pc + 2 }) ∧
  (∀ (op1 : Byte) (s : State), 7 < op1.toNat →
    exec (.prn op1) s = .next (faulted s .invalidRegister (op1.setWidth 9))) ∧
  FetchFaults 0x47 1

/-! ## ADD, MUL, CMP -/

/-- R57: ADD. -/
def Obligations.AddWritesTheSumModulo256 : Prop :=
  (∀ (op1 op2 : Byte) (rest : List Byte), decode (0xA0 :: op1 :: op2 :: rest) = .ok (.add op1 op2, rest)) ∧
  (∀ (op1 op2 : Byte) (s : State) (h1 : op1.toNat < 8) (h2 : op2.toNat < 8),
    exec (.add op1 op2) s = .next { s with
      regs := s.regs.set op1.toNat
        (BitVec.ofNat 8 ((s.regs[op1.toNat].toNat + s.regs[op2.toNat].toNat) % 256)),
      pc := s.pc + 3 }) ∧
  (∀ (op1 op2 : Byte) (s : State), 7 < op1.toNat →
    exec (.add op1 op2) s = .next (faulted s .invalidRegister (op1.setWidth 9))) ∧
  (∀ (op1 op2 : Byte) (s : State), op1.toNat < 8 → 7 < op2.toNat →
    exec (.add op1 op2) s = .next (faulted s .invalidRegister (op2.setWidth 9))) ∧
  FetchFaults 0xA0 2

/-- R58: MUL. -/
def Obligations.MulWritesTheProductModulo256 : Prop :=
  (∀ (op1 op2 : Byte) (rest : List Byte), decode (0xA2 :: op1 :: op2 :: rest) = .ok (.mul op1 op2, rest)) ∧
  (∀ (op1 op2 : Byte) (s : State) (h1 : op1.toNat < 8) (h2 : op2.toNat < 8),
    exec (.mul op1 op2) s = .next { s with
      regs := s.regs.set op1.toNat
        (BitVec.ofNat 8 ((s.regs[op1.toNat].toNat * s.regs[op2.toNat].toNat) % 256)),
      pc := s.pc + 3 }) ∧
  (∀ (op1 op2 : Byte) (s : State), 7 < op1.toNat →
    exec (.mul op1 op2) s = .next (faulted s .invalidRegister (op1.setWidth 9))) ∧
  (∀ (op1 op2 : Byte) (s : State), op1.toNat < 8 → 7 < op2.toNat →
    exec (.mul op1 op2) s = .next (faulted s .invalidRegister (op2.setWidth 9))) ∧
  FetchFaults 0xA2 2

/-- Section 4 of 41_alu_add_mul_cmp.md (R59): CMP. That it clears the flags it does not set is decision D3 (log 6). -/
def Obligations.CmpWritesExactlyOneFlag : Prop :=
  (∀ (op1 op2 : Byte) (s : State) (h1 : op1.toNat < 8) (h2 : op2.toNat < 8),
    exec (.cmp op1 op2) s = .next { s with
      fl := if s.regs[op1.toNat].toNat = s.regs[op2.toNat].toNat then 0b00000001
            else if s.regs[op1.toNat].toNat > s.regs[op2.toNat].toNat then 0b00000010
            else 0b00000100,
      pc := s.pc + 3 }) ∧
  (∀ (op1 op2 : Byte) (s : State), 7 < op1.toNat →
    exec (.cmp op1 op2) s = .next (faulted s .invalidRegister (op1.setWidth 9))) ∧
  (∀ (op1 op2 : Byte) (s : State), op1.toNat < 8 → 7 < op2.toNat →
    exec (.cmp op1 op2) s = .next (faulted s .invalidRegister (op2.setWidth 9))) ∧
  FetchFaults 0xA7 2

/-- Section 4 of 10_state.md (R16; decisions D3 and D15, log 6 and log 20): after every completed CMP exactly one of E, G, L is
set, the one the comparison found, and bits 7 to 3 are 0. -/
def Obligations.FlagsAreExclusiveAfterCmp : Prop :=
  ∀ (op1 op2 : Byte) (s t : State) (h1 : op1.toNat < 8) (h2 : op2.toNat < 8),
    exec (.cmp op1 op2) s = .next t →
      (flagE t.fl = true ↔ s.regs[op1.toNat].toNat = s.regs[op2.toNat].toNat) ∧
      (flagG t.fl = true ↔ s.regs[op1.toNat].toNat > s.regs[op2.toNat].toNat) ∧
      (flagL t.fl = true ↔ s.regs[op1.toNat].toNat < s.regs[op2.toNat].toNat) ∧
      t.fl.toNat / 8 = 0 ∧
      (flagE t.fl).toNat + (flagG t.fl).toNat + (flagL t.fl).toNat = 1

/-- R17: only CMP writes FL, and only JEQ and JNE read it, bit 0 only: two states that differ in FL (in bits 7 to 1 only, for
JEQ and JNE) give next states that differ in FL only, and a completed CMP removes the difference. -/
def Obligations.OnlyCmpWritesAndJumpsReadFlags : Prop :=
  (∀ (i : Instr) (s t : State), exec i s = .next t → i.mnemonic ≠ .cmp → t.fl = s.fl) ∧
  ∀ (i : Instr) (s t : State) (v : Byte), exec i s = .next t →
    ((i.mnemonic = .jeq ∨ i.mnemonic = .jne) → v.getLsbD 0 = s.fl.getLsbD 0) →
    exec i { s with fl := v } = .next { t with fl := if i.mnemonic = .cmp ∧ i.WellFormed then t.fl else v }

/-! ## PUSH, POP, and the stack -/

/-- R63: PUSH. The pushed value is read after the decrement, so `PUSH R7` stores the decremented SP. -/
def Obligations.PushStoresBelowTheStackTop : Prop :=
  (∀ (op1 : Byte) (rest : List Byte), decode (0x45 :: op1 :: rest) = .ok (.push op1, rest)) ∧
  (∀ (op1 : Byte) (s : State) (h : op1.toNat < 8), Memory.wf s.ram →
    ∃ t, exec (.push op1) s = .next t ∧
      t = { s with regs := s.regs.set 7 (s.regs[7] - 1), ram := t.ram, pc := s.pc + 2 } ∧
      (∀ a, t.byteAt a =
        if a = (s.regs[7] - 1).toNat then (if op1.toNat = 7 then s.regs[7] - 1 else s.regs[op1.toNat])
        else s.byteAt a)) ∧
  (∀ (op1 : Byte) (s : State), 7 < op1.toNat →
    exec (.push op1) s = .next (faulted s .invalidRegister (op1.setWidth 9))) ∧
  FetchFaults 0x45 1

/-- R64: POP. The increment reads `x[7]` after the write, so `POP R7` ends with the popped value plus 1; PUSH then POP of the
same register gives back every register, and PUSH Ra then POP Rb copies Ra to Rb. -/
def Obligations.PopLoadsTheStackTop : Prop :=
  (∀ (op1 : Byte) (rest : List Byte), decode (0x46 :: op1 :: rest) = .ok (.pop op1, rest)) ∧
  (∀ (op1 : Byte) (s : State) (h : op1.toNat < 8), op1.toNat ≠ 7 →
    exec (.pop op1) s = .next { s with
      regs := (s.regs.set op1.toNat (s.byteAt s.regs[7].toNat)).set 7 (s.regs[7] + 1), pc := s.pc + 2 }) ∧
  (∀ (op1 : Byte) (s : State), op1.toNat = 7 →
    exec (.pop op1) s = .next { s with regs := s.regs.set 7 (s.byteAt s.regs[7].toNat + 1), pc := s.pc + 2 }) ∧
  (∀ (op1 : Byte) (s : State), 7 < op1.toNat →
    exec (.pop op1) s = .next (faulted s .invalidRegister (op1.setWidth 9))) ∧
  FetchFaults 0x46 1 ∧
  (∀ (op1 : Byte) (s : State), op1.toNat < 8 → Memory.wf s.ram →
    ∃ t u, exec (.push op1) s = .next t ∧ exec (.pop op1) t = .next u ∧ u.regs = s.regs) ∧
  ∀ (op1 op2 : Byte) (s : State) (h1 : op1.toNat < 7) (h2 : op2.toNat < 7), Memory.wf s.ram →
    ∃ t u, exec (.push op1) s = .next t ∧ exec (.pop op2) t = .next u ∧
      u.regs = s.regs.set op2.toNat s.regs[op1.toNat]

/-- Section 1 of 42_stack_push_pop.md (R62) and section 5 of 41_alu_add_mul_cmp.md (R60): SP moves by one modulo 256 in both
directions (0x00 down to 0xFF, 0xFF up to 0x00), in PUSH and CALL and in POP and RET, and no stack access faults, whatever SP
holds and whichever register is the operand. After POP R7 SP is the popped byte plus 1 (decision D10, log 11). -/
def Obligations.StackPointerWraps : Prop :=
  (∀ (s : State) (v : Nat), memRead s s.stackAddr = .ok (s.byteAt s.sp.toNat) ∧
    ∃ t, memWrite s.decSp s.decSp.stackAddr v = .ok t) ∧
  (∀ (op1 : Byte) (s : State), op1.toNat < 8 →
    ∃ t, exec (.push op1) s = .next t ∧ t.sp.toNat = (s.sp.toNat + 255) % 256 ∧ t.status = s.status) ∧
  (∀ (op1 : Byte) (s : State), op1.toNat < 8 →
    ∃ t, exec (.call op1) s = .next t ∧ t.sp.toNat = (s.sp.toNat + 255) % 256 ∧ t.status = s.status) ∧
  (∀ (op1 : Byte) (s : State), op1.toNat < 8 →
    ∃ t, exec (.pop op1) s = .next t ∧ t.status = s.status ∧
      t.sp.toNat = ((if op1.toNat = 7 then (s.byteAt s.sp.toNat).toNat else s.sp.toNat) + 1) % 256) ∧
  ∀ s : State, ∃ t, exec .ret s = .next t ∧ t.sp.toNat = (s.sp.toNat + 1) % 256 ∧ t.status = s.status

/-! ## CALL, RET, JMP, JEQ, JNE -/

/-- Section 2 of 43_control_call_ret_jmp_jeq_jne.md (R66): CALL. The target is read after the decrement (decision D10, log 11),
and the return address is stored modulo 256 (derived by the spec). -/
def Obligations.CallPushesTheReturnAddress : Prop :=
  (∀ (op1 : Byte) (s : State) (h : op1.toNat < 8), Memory.wf s.ram →
    ∃ t, exec (.call op1) s = .next t ∧
      t = { s with
        regs := s.regs.set 7 (s.regs[7] - 1), ram := t.ram,
        pc := (if op1.toNat = 7 then s.regs[7] - 1 else s.regs[op1.toNat]).setWidth 9 } ∧
      (∀ a, t.byteAt a =
        if a = (s.regs[7] - 1).toNat then BitVec.ofNat 8 ((s.pc.toNat + 2) % 256) else s.byteAt a)) ∧
  (∀ (op1 : Byte) (s : State), 7 < op1.toNat →
    exec (.call op1) s = .next (faulted s .invalidRegister (op1.setWidth 9))) ∧
  FetchFaults 0x50 1

/-- Sections 2 and 3 of 43_control_call_ret_jmp_jeq_jne.md (R67): RET, and CALL followed by RET: from any state that has SP and the
stacked byte as CALL left them, RET resumes at call site + 2 with SP as before the CALL. That it resumes at 0 for a call at 254 is
corner case (b) of R66, an inference that the spec marks as its own. -/
def Obligations.RetPopsThePc : Prop :=
  (∀ rest : List Byte, decode (0x11 :: rest) = .ok (.ret, rest)) ∧
  (∀ s : State, exec .ret s = .next { s with
    pc := (s.byteAt s.regs[7].toNat).setWidth 9, regs := s.regs.set 7 (s.regs[7] + 1) }) ∧
  ∀ (op1 : Byte) (s t u : State), op1.toNat < 8 → s.pc.toNat ≤ 254 → Memory.wf s.ram →
    exec (.call op1) s = .next t → u.sp = t.sp → u.byteAt t.sp.toNat = t.byteAt t.sp.toNat →
    ∃ v, exec .ret u = .next v ∧ v.sp = s.sp ∧
      v.pc.toNat = if s.pc.toNat = 254 then 0 else s.pc.toNat + 2

/-- R68: JMP. -/
def Obligations.JmpSetsThePc : Prop :=
  (∀ (op1 : Byte) (rest : List Byte), decode (0x54 :: op1 :: rest) = .ok (.jmp op1, rest)) ∧
  (∀ (op1 : Byte) (s : State) (h : op1.toNat < 8),
    exec (.jmp op1) s = .next { s with pc := s.regs[op1.toNat].setWidth 9 }) ∧
  (∀ (op1 : Byte) (s : State), 7 < op1.toNat →
    exec (.jmp op1) s = .next (faulted s .invalidRegister (op1.setWidth 9))) ∧
  FetchFaults 0x54 1

/-- Section 5 of 43_control_call_ret_jmp_jeq_jne.md (R69): JEQ. That a not-taken JEQ does not check its register is decision D11
(log 12). -/
def Obligations.JeqJumpsWhenEqual : Prop :=
  (∀ (op1 : Byte) (s : State) (h : op1.toNat < 8), s.fl.getLsbD 0 = true →
    exec (.jeq op1) s = .next { s with pc := s.regs[op1.toNat].setWidth 9 }) ∧
  (∀ (op1 : Byte) (s : State), 7 < op1.toNat → s.fl.getLsbD 0 = true →
    exec (.jeq op1) s = .next (faulted s .invalidRegister (op1.setWidth 9))) ∧
  (∀ (op1 : Byte) (s : State), s.fl.getLsbD 0 = false → exec (.jeq op1) s = .next { s with pc := s.pc + 2 }) ∧
  FetchFaults 0x55 1

/-- Section 6 of 43_control_call_ret_jmp_jeq_jne.md (R70): JNE. That a not-taken JNE does not check its register is decision D11
(log 12). -/
def Obligations.JneJumpsWhenNotEqual : Prop :=
  (∀ (op1 : Byte) (s : State) (h : op1.toNat < 8), s.fl.getLsbD 0 = false →
    exec (.jne op1) s = .next { s with pc := s.regs[op1.toNat].setWidth 9 }) ∧
  (∀ (op1 : Byte) (s : State), 7 < op1.toNat → s.fl.getLsbD 0 = false →
    exec (.jne op1) s = .next (faulted s .invalidRegister (op1.setWidth 9))) ∧
  (∀ (op1 : Byte) (s : State), s.fl.getLsbD 0 = true → exec (.jne op1) s = .next { s with pc := s.pc + 2 }) ∧
  FetchFaults 0x56 1

/-- Section 6 of 43_control_call_ret_jmp_jeq_jne.md (R70, quoting the source's property): after a CMP of two registers, JEQ jumps
exactly when they were equal and JNE exactly when they were not; otherwise PC advances by 2. -/
def Obligations.JumpsFollowThePriorComparison : Prop :=
  ∀ (a b c : Byte) (s t : State) (ha : a.toNat < 8) (hb : b.toNat < 8) (hc : c.toNat < 8),
    exec (.cmp a b) s = .next t →
    exec (.jeq c) t = .next { t with
      pc := if s.regs[a.toNat] = s.regs[b.toNat] then s.regs[c.toNat].setWidth 9 else s.pc + 5 } ∧
    exec (.jne c) t = .next { t with
      pc := if s.regs[a.toNat] = s.regs[b.toNat] then s.pc + 5 else s.regs[c.toNat].setWidth 9 }

/-- Section 1 of 43_control_call_ret_jmp_jeq_jne.md (R65): the target of every control transfer that completes is in [0,255], so
the next opcode fetch cannot be out of range; the transfer is the whole change of PC (no delay slot). -/
def Obligations.TransfersLandInMemory : Prop :=
  ∀ (i : Instr) (op1 : Byte) (s t : State), i.WellFormed → exec i s = .next t →
    (i = .call op1 ∨ i = .ret ∨ i = .jmp op1 ∨ (i = .jeq op1 ∧ flagE s.fl = true) ∨ (i = .jne op1 ∧ flagE s.fl = false)) →
    t.pc.toNat ≤ 255 ∧ memRead t t.pc.toNat = .ok (t.byteAt t.pc.toNat)

/-- Section 3 of 10_state.md (R15; HLT's row is decision D5, log 8): the new PC of every instruction that completes. -/
def Obligations.PcAdvancesByTheTable : Prop :=
  ∀ (i : Instr) (s t : State), exec i s = .next t → i.WellFormed →
    t.pc = match i with
      | .hlt => s.pc + 1
      | .ret => (s.byteAt s.sp.toNat).setWidth 9
      | .prn _ | .push _ | .pop _ => s.pc + 2
      | .call op1 => (if op1.toNat = 7 then s.sp - 1 else s.regs[op1.toNat]?.getD 0).setWidth 9
      | .jmp op1 => (s.regs[op1.toNat]?.getD 0).setWidth 9
      | .jeq op1 => if s.fl.getLsbD 0 then (s.regs[op1.toNat]?.getD 0).setWidth 9 else s.pc + 2
      | .jne op1 => if s.fl.getLsbD 0 then s.pc + 2 else (s.regs[op1.toNat]?.getD 0).setWidth 9
      | .ldi _ _ | .add _ _ | .mul _ _ | .cmp _ _ => s.pc + 3

/-! ## Frames -/

/-- Frame of LDI, ADD and MUL (10_state.md R10, R17; 41_alu_add_mul_cmp.md R56): only `x[op1]` and PC may change; STATUS, FCAUSE
and FINFO change only by the fault of an invalid register operand. -/
def Obligations.FrameOfLdiAddMul : Prop :=
  ∀ (i : Instr) (op1 op2 : Byte) (s t : State),
    i = .ldi op1 op2 ∨ i = .add op1 op2 ∨ i = .mul op1 op2 → exec i s = .next t →
      (∀ r : Fin 8, r.val ≠ op1.toNat → t.reg r = s.reg r) ∧
      t.fl = s.fl ∧ t.out = s.out ∧ (∀ a, t.byteAt a = s.byteAt a) ∧
      (i.WellFormed → t.status = s.status ∧ t.fcause = s.fcause ∧ t.finfo = s.finfo)

/-- Frame of PUSH and CALL (20_memory.md R30; 42_stack_push_pop.md R63): only SP, PC and the byte at the decremented SP may
change; STATUS, FCAUSE and FINFO change only by the fault of an invalid register operand. -/
def Obligations.FrameOfPushCall : Prop :=
  ∀ (i : Instr) (op1 : Byte) (s t : State), i = .push op1 ∨ i = .call op1 → exec i s = .next t →
    (∀ r : Fin 8, r.val ≠ 7 → t.reg r = s.reg r) ∧
    t.fl = s.fl ∧ t.out = s.out ∧ (∀ a, a ≠ s.decSp.stackAddr → t.byteAt a = s.byteAt a) ∧
    (i.WellFormed → t.status = s.status ∧ t.fcause = s.fcause ∧ t.finfo = s.finfo)

/-- Frame of POP and RET (20_memory.md R30; 42_stack_push_pop.md R64): only SP, PC and, for POP, `x[op1]` may change; no byte of
memory changes. -/
def Obligations.FrameOfPopRet : Prop :=
  (∀ (op1 : Byte) (s t : State), exec (.pop op1) s = .next t →
    (∀ r : Fin 8, r.val ≠ 7 → r.val ≠ op1.toNat → t.reg r = s.reg r) ∧
    t.fl = s.fl ∧ t.out = s.out ∧ (∀ a, t.byteAt a = s.byteAt a) ∧
    (op1.toNat < 8 → t.status = s.status ∧ t.fcause = s.fcause ∧ t.finfo = s.finfo)) ∧
  ∀ s t : State, exec .ret s = .next t →
    (∀ r : Fin 8, r.val ≠ 7 → t.reg r = s.reg r) ∧
    t.fl = s.fl ∧ t.out = s.out ∧ (∀ a, t.byteAt a = s.byteAt a) ∧
    t.status = s.status ∧ t.fcause = s.fcause ∧ t.finfo = s.finfo

/-- Frame of JMP, JEQ and JNE (43_control_call_ret_jmp_jeq_jne.md R68): nothing but PC changes; STATUS, FCAUSE and FINFO change
only by the fault of an invalid register operand. -/
def Obligations.FrameOfJumps : Prop :=
  ∀ (i : Instr) (op1 : Byte) (s t : State), i = .jmp op1 ∨ i = .jeq op1 ∨ i = .jne op1 → exec i s = .next t →
    (∀ r : Fin 8, t.reg r = s.reg r) ∧ t.fl = s.fl ∧ t.out = s.out ∧ (∀ a, t.byteAt a = s.byteAt a) ∧
    (i.WellFormed → t.status = s.status ∧ t.fcause = s.fcause ∧ t.finfo = s.finfo)

/-- Frame of CMP, PRN and HLT (10_state.md R10; 40_step_hlt_ldi_prn.md R53, R55; 41_alu_add_mul_cmp.md R59): no register and no
byte of memory changes; beside PC, CMP changes FL only, PRN OUT only, HLT STATUS only. -/
def Obligations.FrameOfCmpPrnHlt : Prop :=
  (∀ (i : Instr) (op1 op2 : Byte) (s t : State), i = .cmp op1 op2 ∨ i = .prn op1 ∨ i = .hlt → exec i s = .next t →
    (∀ r : Fin 8, t.reg r = s.reg r) ∧ (∀ a, t.byteAt a = s.byteAt a) ∧
    (i ≠ .cmp op1 op2 → t.fl = s.fl) ∧ (i ≠ .prn op1 → t.out = s.out) ∧
    (i.WellFormed → t.fcause = s.fcause ∧ t.finfo = s.finfo) ∧
    (i.WellFormed → i ≠ .hlt → t.status = s.status))

/-! ## Memory, registers, output -/

/-- R25: the read contract. A read answers a byte and no state, so it changes nothing. -/
def Obligations.MemReadContract : Prop :=
  ∀ (s : State) (addr : Nat),
    (addr ≤ 255 → memRead s addr = .ok (s.byteAt addr)) ∧ (255 < addr → memRead s addr = .error (.outOfRange addr))

/-- Section 1 of 20_memory.md (R26): the write contract: `v mod 256` at that one cell and nothing else, or `OutOfRange`. The
canonical form that it assumes and keeps (`Memory.wf`) is the model's way to write the 256 cells (log 21, DESIGN CHOICE). -/
def Obligations.MemWriteContract : Prop :=
  ∀ (s : State) (addr v : Nat), Memory.wf s.ram →
    (addr ≤ 255 → ∃ t, memWrite s addr v = .ok t ∧ t = { s with ram := t.ram } ∧ Memory.wf t.ram ∧
      ∀ a, t.byteAt a = if a = addr then BitVec.ofNat 8 (v % 256) else s.byteAt a) ∧
    (255 < addr → memWrite s addr v = .error (.outOfRange addr))

/-- Section 2 of 20_memory.md (R30, C3): only PUSH and CALL write memory, and only the one byte at the decremented SP. -/
def Obligations.OnlyPushAndCallWriteMemory : Prop :=
  ∀ s t : State, s.Running → step s = .next t → ∀ a, t.byteAt a ≠ s.byteAt a →
    a = (s.sp - 1).toNat ∧ s.pc.toNat ≤ 254 ∧
      (s.byteAt s.pc.toNat = opcodeMap .push ∨ s.byteAt s.pc.toNat = opcodeMap .call)

/-- Section 2 of 10_state.md (R12): register access: an index in [0,7] reads the value last written there and leaves the others
alone; an index in [8,255] is `InvalidRegister`, unmasked. -/
def Obligations.RegisterAccessContract : Prop :=
  (∀ (s : State) (r q : Fin 8) (v : Byte), (s.setReg r v).reg q = if q = r then v else s.reg q) ∧
  (∀ (op : Byte) (h : op.toNat < 8), regIndex op = .ok ⟨op.toNat, h⟩) ∧
  ∀ op : Byte, 7 < op.toNat → regIndex op = .error (.invalidRegister op)

/-- Section 5 of 20_memory.md (R37, decision D16, log 16): a store is seen by every later fetch with nothing in between. After a
PUSH or a CALL that stored `b` at the decremented SP, in every state whose RAM is still what it left (its own next state first of
all), wherever PC is, a read of any byte and the fetch of opcode, op1 and op2 alike see `b` at that address and the old bytes
elsewhere, at every `OPCODE_MAP`. -/
def Obligations.NextFetchSeesTheStore : Prop :=
  ∀ (om : OpcodeMap) (i : Instr) (op1 b : Byte) (s t u : State) (h : op1.toNat < 8), Memory.wf s.ram →
    (i = .push op1 ∧ b = (if op1.toNat = 7 then s.sp - 1 else s.regs[op1.toNat])) ∨
      (i = .call op1 ∧ b = BitVec.ofNat 8 ((s.pc.toNat + 2) % 256)) →
    exec i s = .next t → u.ram = t.ram →
      (∀ a, a ≤ 255 → memRead u a = .ok (byteAfter s (s.sp - 1).toNat b a)) ∧
      (u.pc.toNat ≤ 255 → fetch om u = fetchFrom om u.pc.toNat (byteAfter s (s.sp - 1).toNat b))

/-- Section 6 of 10_state.md (R21; that the append never fails is decision D13, log 14): OUT is append-only and in program order:
a step adds at most one value, only PRN adds one, and along a run what was printed stays a prefix. -/
def Obligations.OutputIsAppendOnly : Prop :=
  (∀ s t : State, step s = .next t →
    t.out = s.out ∨ (s.Running ∧ s.byteAt s.pc.toNat = opcodeMap .prn ∧ ∃ v, t.out = s.out ++ [v])) ∧
  ∀ (k : Nat) (s t : State), run k s = .next t → s.out <+: t.out

/-- Section 6 of 10_state.md (R20, R21): no instruction reads FCAUSE, FINFO or OUT: changing them before a step changes nothing
else after it. -/
def Obligations.FaultRecordAndOutputAreNeverRead : Prop :=
  ∀ (s t : State) (c : FCause) (f : PcWord) (o : List Byte), s.Running → step s = .next t →
    ∃ (u : State) (added : List Byte),
      t.out = s.out ++ added ∧ step { s with fcause := c, finfo := f, out := o } = .next u ∧
      u = { t with
        fcause := if t.Faulted then t.fcause else c,
        finfo := if t.Faulted then t.finfo else f,
        out := o ++ added }

/-- Section 1 of 20_memory.md (R27, derived by the spec): only a fetch is out of range, of the opcode at 256, of op1 from 255 or
of op2 from 254, and the offending address is always 256. -/
def Obligations.OnlyFetchIsOutOfRange : Prop :=
  ∀ s t : State, s.Inv → s.Running → step s = .next t → t.fcause = .outOfRange →
    t.finfo = 256 ∧
    (s.pc.toNat = 256 ∨ ∃ m, lookupOpcode opcodeMap (s.byteAt s.pc.toNat) = some m ∧
      ((s.pc.toNat = 255 ∧ 1 ≤ operandCount m) ∨ (s.pc.toNat = 254 ∧ operandCount m = 2)))

/-! ## Reset and the invariant -/

/-- Section 7 of 10_state.md (R23): PC is 0 (the source: "starts at 0") and STATUS is RUNNING; the other values are the spec's
decisions D2, D8, D9, D13 and D21 (log 2, 3, 4, 14, 18). -/
def Obligations.ResetValues : Prop :=
  State.reset.pc = 0 ∧ State.reset.status = .running ∧
  State.reset.sp = 0xF4 ∧ (∀ r : Fin 8, r ≠ 7 → State.reset.reg r = 0x00) ∧
  State.reset.fl = 0x00 ∧ (∀ a, State.reset.byteAt a = 0x00) ∧
  State.reset.fcause.code = 0 ∧ State.reset.finfo = 0 ∧ State.reset.out = []

/-- Section 1 of 70_reset_and_hazards.md (R83; values by decisions D2, D8, D9): `Reset(IMAGE)` sets RAM to the image and every
other element as in the reset table; a program of at most 256 bytes makes an image filled with 0x00, a longer one none. -/
def Obligations.ResetLoadsTheImage : Prop :=
  (∀ (image : Image) (a : Fin 256), (State.resetImage image).byteAt a.val = image[a.val]) ∧
  (∀ image : Image, State.resetImage image = { State.reset with ram := (State.resetImage image).ram }) ∧
  (∀ program : List Byte, program.length ≤ 256 →
    ∃ image, Image.ofProgram program = some image ∧ ∀ a : Fin 256, image[a.val] = program.getD a.val 0x00) ∧
  ∀ program : List Byte, 256 < program.length → Image.ofProgram program = none

/-- R84: the first step after reset fetches its opcode from address 0. -/
def Obligations.FirstStepFetchesAddressZero : Prop :=
  ∀ image : Image, (State.resetImage image).pc = 0 ∧
    (State.resetImage image).codeBytes = [image[0], image[1], image[2]] ∧
    ∀ (i : Instr) (rest : List Byte), decode [image[0], image[1], image[2]] = .ok (i, rest) →
      step (State.resetImage image) = exec i (State.resetImage image)

/-- The invariant of the machine (10_state.md sections 3 to 6) holds at the reset state. Its clause that RAM is canonical is the
model's form of the 256 cells (log 21, DESIGN CHOICE). -/
def Obligations.ResetMeetsTheInvariant : Prop := State.reset.Inv

/-- The invariant of the machine holds after `Reset(IMAGE)`, for every image. Its clause that RAM is canonical is the model's form
of the 256 cells (log 21, DESIGN CHOICE). -/
def Obligations.EveryImageMeetsTheInvariant : Prop := ∀ image : Image, (State.resetImage image).Inv

/-- Every step keeps the invariant (10_state.md R14, R16, R20): PC at most `PC_MAX` = 256, RAM canonical, FL one of 0, 1, 2, 4, and
the fault record consistent with STATUS. It rests on decisions D3, D4, D15 and D21 (log 6, 7, 20, 18); that RAM is canonical is the
model's form of the 256 cells (log 21, DESIGN CHOICE). -/
def Obligations.StepKeepsTheInvariant : Prop := ∀ s t : State, s.Inv → step s = .next t → t.Inv

/-- Every state of every run from every image meets the invariant (70_reset_and_hazards.md R86): in particular PC never takes
the values 257 to 511. That RAM is canonical is the model's form of the 256 cells (log 21, DESIGN CHOICE). -/
def Obligations.EveryReachableStateMeetsTheInvariant : Prop :=
  ∀ (image : Image) (k : Nat) (t : State), run k (State.resetImage image) = .next t → t.Inv

/-! ## The model's own interface -/

/-- An instruction given as one number, placed where the step fetches, is the instruction the next step runs (the model's
convention, log 5): from any state whose PC leaves room for three bytes. -/
def Obligations.FetchWordIsRunNext : Prop :=
  ∀ (s : State) (nbits w : Nat) (i : Instr), Memory.wf s.ram → s.pc.toNat ≤ 253 → decodeTableWord nbits w = some i →
    step (s.withFetchWord nbits w) = exec i (s.withFetchWord nbits w)

/-! ## The machine at every opcode map -/

/-- Section 2 of 30_encoding.md (R42: a model takes `OPCODE_MAP` as a configuration field): the step at EVERY map is the decoder at
that map run on the bytes at `PC`, a terminal state never changes at any map, and the host's step is the step at the default map
(decision D1, log 1). -/
def Obligations.StepAtEveryMapRefinesItsDecoder : Prop :=
  (∀ s : State, step s = singleStep opcodeMap s) ∧
  ∀ (om : OpcodeMap) (s : State),
    (¬ s.Running → singleStep om s = .next s) ∧
    (s.Running → s.pc.toNat ≤ Config.pcMax →
      match decodeWith om s.codeBytes with
      | .ok (i, _) => singleStep om s = exec i s
      | .error (.unknownOpcode opc) => singleStep om s = .next (faulted s .unknownInstruction (opc.setWidth 9))
      | .error (.truncated _) => singleStep om s = .next (faulted s .outOfRange 256))

/-- Section 2 of 30_encoding.md (R42) with section 3 of 10_state.md (R14): at EVERY map, every step and every run from every image
keeps that map's invariant; nothing in it rests on the default byte values. It rests on decisions D3, D4, D15 and D21 (log 6, 7,
20, 18); that RAM is canonical is the model's form of the 256 cells (log 21, DESIGN CHOICE). -/
def Obligations.InvariantIsKeptAtEveryMap : Prop :=
  ∀ om : OpcodeMap,
    (∀ s t : State, s.InvAt om → singleStep om s = .next t → t.InvAt om) ∧
    ∀ (image : Image) (k : Nat) (t : State), runAt om k (State.resetImage image) = .next t → t.InvAt om
end

