-- ==== Sys2Proof/Laws/Decode.lean ====
section
/-!
SUPPORT. What the opcode lookup can answer, and the default map.
-/

namespace Sys2Proof

theorem Mnemonic.mem_all (m : Mnemonic) : m ∈ Mnemonic.all := by cases m <;> decide

/-- A lookup that answers a mnemonic answers one whose byte it is (R41). -/
theorem lookupOpcode_some {om : OpcodeMap} {b : Byte} {m : Mnemonic} (h : lookupOpcode om b = some m) : om m = b := by
  simpa using List.find?_some h

/-- A lookup answers nothing exactly for the bytes outside the map (R44). -/
theorem lookupOpcode_none {om : OpcodeMap} {b : Byte} : lookupOpcode om b = none ↔ ∀ m, om m ≠ b := by
  simp [lookupOpcode, List.find?_eq_none, Mnemonic.mem_all]

/-- With an injective map, the byte of a mnemonic selects that mnemonic (R42). -/
theorem lookupOpcode_self {om : OpcodeMap} (hom : om.Injective) (m : Mnemonic) : lookupOpcode om (om m) = some m := by
  cases h : lookupOpcode om (om m) with
  | none => exact absurd rfl (lookupOpcode_none.mp h m)
  | some n => rw [hom n m (lookupOpcode_some h)]

/-- The 13 default bytes are pairwise different (R42). -/
theorem opcodeMap_injective : opcodeMap.Injective := by
  intro m n h
  revert h
  cases m <;> cases n <;> decide

/-- An instruction is assembled from its mnemonic and its operand bytes (R40). -/
theorem assemble_operands (i : Instr) : assemble i.mnemonic (i.operands.getD 0 0) (i.operands.getD 1 0) = i := by
  cases i <;> rfl

@[simp] theorem mnemonic_assemble (m : Mnemonic) (a b : Byte) : (assemble m a b).mnemonic = m := by cases m <;> rfl

end Sys2Proof
end

