-- ==== Sys2Proof/Laws/Memory.lean ====
section
/-!
SUPPORT. The laws of RAM as a canonical list: a read after a write, and every memory operation keeps the canonical form.
-/

namespace Sys2Proof.Machine

/-! ## Reading what was placed or written (R25, R26) -/

@[simp] theorem Memory.read_nil (a : Nat) : Memory.read [] a = Config.memFill := rfl

theorem Memory.read_cons (k : Nat) (v : Byte) (m : Memory) (a : Nat) :
    Memory.read ((k, v) :: m) a = if k = a then v else Memory.read m a := rfl

/-- Every listed address of `m` is above `a`. -/
abbrev Memory.Above (a : Nat) (m : Memory) : Prop := ∀ c ∈ m, a < c.1

/-- A cell below every listed address holds `MEM_FILL`. -/
theorem Memory.read_of_above {a : Nat} {m : Memory} (h : Memory.Above a m) : Memory.read m a = Config.memFill := by
  induction m with
  | nil => rfl
  | cons c m ih =>
    obtain ⟨k, v⟩ := c
    have hk : a < k := h (k, v) (by simp)
    rw [Memory.read_cons, if_neg (by omega)]
    exact ih fun d hd => h d (by simp [hd])

theorem Memory.read_place {a : Nat} {m : Memory} (h : Memory.Above a m) (v : Byte) (b : Nat) :
    Memory.read (Memory.place a v m) b = if a = b then v else Memory.read m b := by
  unfold Memory.place
  split
  · next hv =>
    split
    · next hab => subst hab; rw [Memory.read_of_above h, hv]
    · rfl
  · exact Memory.read_cons a v m b

/-- The tail of a canonical memory lies above its head. -/
theorem Memory.wf_tail {k : Nat} {v : Byte} {m : Memory} (h : Memory.wf ((k, v) :: m)) :
    Memory.wf m ∧ Memory.Above k m ∧ k < 256 ∧ v ≠ Config.memFill := by
  obtain ⟨hp, hc⟩ := h
  rw [List.pairwise_cons] at hp
  exact ⟨⟨hp.2, fun c hc' => hc c (by simp [hc'])⟩, hp.1, (hc (k, v) (by simp)).1, (hc (k, v) (by simp)).2⟩

/-- A read after a write: the value at the address written, every other cell as before (R26, R34(c)). -/
theorem Memory.read_write {m : Memory} (hm : Memory.wf m) (a : Nat) (v : Byte) (b : Nat) :
    Memory.read (Memory.write m a v) b = if a = b then v else Memory.read m b := by
  induction m with
  | nil => exact Memory.read_place (by simp) v b
  | cons c m ih =>
    obtain ⟨k, w⟩ := c
    obtain ⟨hwf, habove, -, -⟩ := Memory.wf_tail hm
    unfold Memory.write
    split
    · next hak =>
      refine Memory.read_place (fun c hc => ?_) v b
      rcases List.mem_cons.mp hc with rfl | hc
      · exact hak
      · exact Nat.lt_trans hak (habove c hc)
    · split
      · next hak =>
        subst hak
        rw [Memory.read_place habove, Memory.read_cons]
        split <;> simp_all
      · next hne =>
        rw [Memory.read_cons, ih hwf, Memory.read_cons]
        split <;> split <;> first | rfl | omega

/-- Without any premise, a write leaves every other cell alone (R26). -/
theorem Memory.read_write_ne (m : Memory) {a b : Nat} (v : Byte) (h : a ≠ b) :
    Memory.read (Memory.write m a v) b = Memory.read m b := by
  have hplace : ∀ m : Memory, Memory.read (Memory.place a v m) b = Memory.read m b := fun m => by
    unfold Memory.place; split
    · rfl
    · rw [Memory.read_cons, if_neg h]
  induction m with
  | nil => exact hplace []
  | cons c m ih =>
    obtain ⟨k, w⟩ := c
    unfold Memory.write
    split
    · exact hplace _
    · split
      · next hak => rw [hplace, Memory.read_cons, if_neg (hak ▸ h)]
      · rw [Memory.read_cons, ih, Memory.read_cons]

/-! ## The canonical form is kept -/

theorem Memory.wf_nil : Memory.wf [] := by decide

theorem Memory.wf_place {a : Nat} {m : Memory} (hm : Memory.wf m) (ha : a < 256) (h : Memory.Above a m) (v : Byte) :
    Memory.wf (Memory.place a v m) := by
  unfold Memory.place
  split
  · exact hm
  · next hv =>
    refine ⟨List.pairwise_cons.mpr ⟨h, hm.1⟩, fun c hc => ?_⟩
    rcases List.mem_cons.mp hc with rfl | hc
    · exact ⟨ha, hv⟩
    · exact hm.2 c hc

theorem Memory.above_place {k a : Nat} {m : Memory} (hk : k < a) (h : Memory.Above k m) (v : Byte) :
    Memory.Above k (Memory.place a v m) := by
  unfold Memory.place
  split
  · exact h
  · intro c hc
    rcases List.mem_cons.mp hc with rfl | hc
    · exact hk
    · exact h c hc

theorem Memory.above_write {k a : Nat} {m : Memory} (hk : k < a) (h : Memory.Above k m) (v : Byte) :
    Memory.Above k (Memory.write m a v) := by
  induction m with
  | nil => exact Memory.above_place hk h v
  | cons c m ih =>
    have hm : Memory.Above k m := fun d hd => h d (by simp [hd])
    unfold Memory.write
    split
    · exact Memory.above_place hk h v
    · split
      · exact Memory.above_place hk hm v
      · intro d hd
        rcases List.mem_cons.mp hd with rfl | hd
        · exact h _ (by simp)
        · exact ih hm d hd

/-- A write to an address of RAM keeps the canonical form. -/
theorem Memory.wf_write {m : Memory} (hm : Memory.wf m) {a : Nat} (ha : a < 256) (v : Byte) :
    Memory.wf (Memory.write m a v) := by
  induction m with
  | nil => exact Memory.wf_place hm ha (by simp) v
  | cons c m ih =>
    obtain ⟨k, w⟩ := c
    obtain ⟨hwf, habove, hk, hw⟩ := Memory.wf_tail hm
    unfold Memory.write
    split
    · next hak =>
      refine Memory.wf_place hm ha (fun d hd => ?_) v
      rcases List.mem_cons.mp hd with rfl | hd
      · exact hak
      · exact Nat.lt_trans hak (habove d hd)
    · split
      · next hak => subst hak; exact Memory.wf_place hwf ha habove v
      · next h1 h2 =>
        have hka : k < a := by omega
        refine ⟨List.pairwise_cons.mpr ⟨Memory.above_write hka habove v, (ih hwf).1⟩, fun d hd => ?_⟩
        rcases List.mem_cons.mp hd with rfl | hd
        · exact ⟨hk, hw⟩
        · exact (ih hwf).2 d hd

/-- Placing bytes keeps the canonical form. -/
theorem Memory.wf_placeBytes {m : Memory} (hm : Memory.wf m) (a : Nat) (bytes : List Byte) :
    Memory.wf (Memory.placeBytes m a bytes) := by
  induction bytes generalizing m a with
  | nil => exact hm
  | cons b bytes ih =>
    unfold Memory.placeBytes
    split
    · next ha => exact ih (Memory.wf_write hm (by omega) b) (a + 1)
    · exact ih hm (a + 1)

/-- What a cell holds after bytes were placed from `a` on. -/
theorem Memory.read_placeBytes {m : Memory} (hm : Memory.wf m) (a : Nat) (bytes : List Byte) {b : Nat} (hb : b ≤ 255) :
    Memory.read (Memory.placeBytes m a bytes) b =
      if a ≤ b ∧ b < a + bytes.length then bytes.getD (b - a) 0 else Memory.read m b := by
  induction bytes generalizing m a with
  | nil => rw [if_neg (by simp)]; rfl
  | cons c bytes ih =>
    unfold Memory.placeBytes
    have hwf : Memory.wf (if a ≤ 255 then Memory.write m a c else m) := by
      split
      · exact Memory.wf_write hm (by omega) c
      · exact hm
    rw [ih hwf]
    have hread : Memory.read (if a ≤ 255 then Memory.write m a c else m) b = if a = b then c else Memory.read m b := by
      split
      · exact Memory.read_write hm a c b
      · rw [if_neg (by omega)]
    rw [hread]
    rcases Nat.lt_trichotomy a b with h | h | h
    · obtain ⟨k, rfl⟩ : ∃ k, b = a + 1 + k := ⟨b - (a + 1), by omega⟩
      have e1 : a + 1 + k - (a + 1) = k := by omega
      have e2 : a + 1 + k - a = k + 1 := by omega
      rw [e1, e2]
      simp only [List.length_cons, List.getD_cons_succ]
      by_cases hk : k < bytes.length
      · rw [if_pos (by omega), if_pos (by omega)]
      · rw [if_neg (by omega), if_neg (by omega), if_neg (by omega)]
    · subst h
      simp
    · rw [if_neg (by omega), if_neg (by omega), if_neg (by omega)]

/-- The memory of an image is canonical and lies at or above its first address. -/
theorem Memory.wf_ofBytes (a : Nat) (bytes : List Byte) (h : a + bytes.length ≤ 256) :
    Memory.wf (Memory.ofBytes a bytes) ∧ ∀ c ∈ Memory.ofBytes a bytes, a ≤ c.1 := by
  induction bytes generalizing a with
  | nil => exact ⟨Memory.wf_nil, by simp [Memory.ofBytes]⟩
  | cons b bytes ih =>
    simp only [List.length_cons] at h
    obtain ⟨hwf, hle⟩ := ih (a + 1) (by omega)
    have habove : Memory.Above a (Memory.ofBytes (a + 1) bytes) := fun c hc => hle c hc
    refine ⟨Memory.wf_place hwf (by omega) habove b, fun c hc => ?_⟩
    simp only [Memory.ofBytes, Memory.place] at hc
    split at hc
    · exact Nat.le_of_lt (habove c hc)
    · rcases List.mem_cons.mp hc with rfl | hc
      · exact Nat.le_refl a
      · exact Nat.le_of_lt (habove c hc)

/-- The memory of an image holds the image's bytes, and `MEM_FILL` elsewhere. -/
theorem Memory.read_ofBytes (a : Nat) (bytes : List Byte) (h : a + bytes.length ≤ 256) (b : Nat) :
    Memory.read (Memory.ofBytes a bytes) b =
      if a ≤ b then bytes.getD (b - a) Config.memFill else Config.memFill := by
  induction bytes generalizing a with
  | nil => simp [Memory.ofBytes]
  | cons c bytes ih =>
    simp only [List.length_cons] at h
    have habove : Memory.Above a (Memory.ofBytes (a + 1) bytes) :=
      fun d hd => (Memory.wf_ofBytes (a + 1) bytes (by omega)).2 d hd
    rw [Memory.ofBytes, Memory.read_place habove, ih (a + 1) (by omega)]
    rcases Nat.lt_trichotomy a b with h | h | h
    · obtain ⟨k, rfl⟩ : ∃ k, b = a + 1 + k := ⟨b - (a + 1), by omega⟩
      have e1 : a + 1 + k - (a + 1) = k := by omega
      have e2 : a + 1 + k - a = k + 1 := by omega
      rw [if_neg (by omega), if_pos (by omega), if_pos (by omega), e1, e2, List.getD_cons_succ]
    · subst h; simp
    · rw [if_neg (by omega), if_neg (by omega), if_neg (by omega)]

/-! ## Programs and images (D9) -/

theorem Image.ofProgram_of_le {program : List Byte} (h : program.length ≤ 256) :
    Image.ofProgram program = some (Vector.ofFn fun a : Fin 256 => program.getD a.val Config.memFill) := if_pos h

end Sys2Proof.Machine
end

