-- ==== Sys2Proof/Laws/State.lean ====
section
/-!
SUPPORT. What each update of the state does to each field: one lemma per field per update, true by `rfl`.
-/

namespace Sys2Proof.Machine

section Fields

variable (s : State)

/-! `State.setReg` -/

@[simp] theorem State.setReg_regs (r : Fin 8) (v : Byte) : (s.setReg r v).regs = s.regs.set r.val v := rfl
@[simp] theorem State.setReg_pc (r : Fin 8) (v : Byte) : (s.setReg r v).pc = s.pc := rfl
@[simp] theorem State.setReg_fl (r : Fin 8) (v : Byte) : (s.setReg r v).fl = s.fl := rfl
@[simp] theorem State.setReg_ram (r : Fin 8) (v : Byte) : (s.setReg r v).ram = s.ram := rfl
@[simp] theorem State.setReg_status (r : Fin 8) (v : Byte) : (s.setReg r v).status = s.status := rfl
@[simp] theorem State.setReg_fcause (r : Fin 8) (v : Byte) : (s.setReg r v).fcause = s.fcause := rfl
@[simp] theorem State.setReg_finfo (r : Fin 8) (v : Byte) : (s.setReg r v).finfo = s.finfo := rfl
@[simp] theorem State.setReg_out (r : Fin 8) (v : Byte) : (s.setReg r v).out = s.out := rfl

/-! `State.advance` -/

@[simp] theorem State.advance_regs (n : PcWord) : (s.advance n).regs = s.regs := rfl
@[simp] theorem State.advance_pc (n : PcWord) : (s.advance n).pc = s.pc + n := rfl
@[simp] theorem State.advance_fl (n : PcWord) : (s.advance n).fl = s.fl := rfl
@[simp] theorem State.advance_ram (n : PcWord) : (s.advance n).ram = s.ram := rfl
@[simp] theorem State.advance_status (n : PcWord) : (s.advance n).status = s.status := rfl
@[simp] theorem State.advance_fcause (n : PcWord) : (s.advance n).fcause = s.fcause := rfl
@[simp] theorem State.advance_finfo (n : PcWord) : (s.advance n).finfo = s.finfo := rfl
@[simp] theorem State.advance_out (n : PcWord) : (s.advance n).out = s.out := rfl

/-! `State.setPc` -/

@[simp] theorem State.setPc_regs (p : PcWord) : (s.setPc p).regs = s.regs := rfl
@[simp] theorem State.setPc_pc (p : PcWord) : (s.setPc p).pc = p := rfl
@[simp] theorem State.setPc_fl (p : PcWord) : (s.setPc p).fl = s.fl := rfl
@[simp] theorem State.setPc_ram (p : PcWord) : (s.setPc p).ram = s.ram := rfl
@[simp] theorem State.setPc_status (p : PcWord) : (s.setPc p).status = s.status := rfl
@[simp] theorem State.setPc_fcause (p : PcWord) : (s.setPc p).fcause = s.fcause := rfl
@[simp] theorem State.setPc_finfo (p : PcWord) : (s.setPc p).finfo = s.finfo := rfl
@[simp] theorem State.setPc_out (p : PcWord) : (s.setPc p).out = s.out := rfl

/-! `State.setFl` -/

@[simp] theorem State.setFl_regs (v : Byte) : (s.setFl v).regs = s.regs := rfl
@[simp] theorem State.setFl_pc (v : Byte) : (s.setFl v).pc = s.pc := rfl
@[simp] theorem State.setFl_fl (v : Byte) : (s.setFl v).fl = v := rfl
@[simp] theorem State.setFl_ram (v : Byte) : (s.setFl v).ram = s.ram := rfl
@[simp] theorem State.setFl_status (v : Byte) : (s.setFl v).status = s.status := rfl
@[simp] theorem State.setFl_fcause (v : Byte) : (s.setFl v).fcause = s.fcause := rfl
@[simp] theorem State.setFl_finfo (v : Byte) : (s.setFl v).finfo = s.finfo := rfl
@[simp] theorem State.setFl_out (v : Byte) : (s.setFl v).out = s.out := rfl

/-! `State.setStatus` -/

@[simp] theorem State.setStatus_regs (st : Status) : (s.setStatus st).regs = s.regs := rfl
@[simp] theorem State.setStatus_pc (st : Status) : (s.setStatus st).pc = s.pc := rfl
@[simp] theorem State.setStatus_fl (st : Status) : (s.setStatus st).fl = s.fl := rfl
@[simp] theorem State.setStatus_ram (st : Status) : (s.setStatus st).ram = s.ram := rfl
@[simp] theorem State.setStatus_status (st : Status) : (s.setStatus st).status = st := rfl
@[simp] theorem State.setStatus_fcause (st : Status) : (s.setStatus st).fcause = s.fcause := rfl
@[simp] theorem State.setStatus_finfo (st : Status) : (s.setStatus st).finfo = s.finfo := rfl
@[simp] theorem State.setStatus_out (st : Status) : (s.setStatus st).out = s.out := rfl

/-! `State.emit` -/

@[simp] theorem State.emit_regs (v : Byte) : (s.emit v).regs = s.regs := rfl
@[simp] theorem State.emit_pc (v : Byte) : (s.emit v).pc = s.pc := rfl
@[simp] theorem State.emit_fl (v : Byte) : (s.emit v).fl = s.fl := rfl
@[simp] theorem State.emit_ram (v : Byte) : (s.emit v).ram = s.ram := rfl
@[simp] theorem State.emit_status (v : Byte) : (s.emit v).status = s.status := rfl
@[simp] theorem State.emit_fcause (v : Byte) : (s.emit v).fcause = s.fcause := rfl
@[simp] theorem State.emit_finfo (v : Byte) : (s.emit v).finfo = s.finfo := rfl
@[simp] theorem State.emit_out (v : Byte) : (s.emit v).out = s.out ++ [v] := rfl

/-! `State.setRam` -/

@[simp] theorem State.setRam_regs (m : Memory) : (s.setRam m).regs = s.regs := rfl
@[simp] theorem State.setRam_pc (m : Memory) : (s.setRam m).pc = s.pc := rfl
@[simp] theorem State.setRam_fl (m : Memory) : (s.setRam m).fl = s.fl := rfl
@[simp] theorem State.setRam_ram (m : Memory) : (s.setRam m).ram = m := rfl
@[simp] theorem State.setRam_status (m : Memory) : (s.setRam m).status = s.status := rfl
@[simp] theorem State.setRam_fcause (m : Memory) : (s.setRam m).fcause = s.fcause := rfl
@[simp] theorem State.setRam_finfo (m : Memory) : (s.setRam m).finfo = s.finfo := rfl
@[simp] theorem State.setRam_out (m : Memory) : (s.setRam m).out = s.out := rfl

/-! `State.takeFault` -/

@[simp] theorem State.takeFault_regs (f : CoreFault) : (s.takeFault f).regs = s.regs := rfl
@[simp] theorem State.takeFault_pc (f : CoreFault) : (s.takeFault f).pc = s.pc := rfl
@[simp] theorem State.takeFault_fl (f : CoreFault) : (s.takeFault f).fl = s.fl := rfl
@[simp] theorem State.takeFault_ram (f : CoreFault) : (s.takeFault f).ram = s.ram := rfl
@[simp] theorem State.takeFault_status (f : CoreFault) : (s.takeFault f).status = .faulted := rfl
@[simp] theorem State.takeFault_fcause (f : CoreFault) : (s.takeFault f).fcause = f.cause := rfl
@[simp] theorem State.takeFault_finfo (f : CoreFault) : (s.takeFault f).finfo = f.info := rfl
@[simp] theorem State.takeFault_out (f : CoreFault) : (s.takeFault f).out = s.out := rfl

/-! `State.decSp` -/

@[simp] theorem State.decSp_regs : (s.decSp).regs = s.regs.set 7 (s.sp - 1) := rfl
@[simp] theorem State.decSp_pc : (s.decSp).pc = s.pc := rfl
@[simp] theorem State.decSp_fl : (s.decSp).fl = s.fl := rfl
@[simp] theorem State.decSp_ram : (s.decSp).ram = s.ram := rfl
@[simp] theorem State.decSp_status : (s.decSp).status = s.status := rfl
@[simp] theorem State.decSp_fcause : (s.decSp).fcause = s.fcause := rfl
@[simp] theorem State.decSp_finfo : (s.decSp).finfo = s.finfo := rfl
@[simp] theorem State.decSp_out : (s.decSp).out = s.out := rfl

/-! `State.incSp` -/

@[simp] theorem State.incSp_regs : (s.incSp).regs = s.regs.set 7 (s.sp + 1) := rfl
@[simp] theorem State.incSp_pc : (s.incSp).pc = s.pc := rfl
@[simp] theorem State.incSp_fl : (s.incSp).fl = s.fl := rfl
@[simp] theorem State.incSp_ram : (s.incSp).ram = s.ram := rfl
@[simp] theorem State.incSp_status : (s.incSp).status = s.status := rfl
@[simp] theorem State.incSp_fcause : (s.incSp).fcause = s.fcause := rfl
@[simp] theorem State.incSp_finfo : (s.incSp).finfo = s.finfo := rfl
@[simp] theorem State.incSp_out : (s.incSp).out = s.out := rfl

end Fields

/-! ## Registers read through updates (R12) -/

theorem State.reg_eq (s : State) (r : Fin 8) : s.reg r = s.regs[r.val] := rfl

@[simp] theorem State.reg_setReg_self (s : State) (r : Fin 8) (v : Byte) : (s.setReg r v).reg r = v := by
  simp [State.reg]

theorem State.reg_setReg_ne (s : State) {r q : Fin 8} (v : Byte) (h : q ≠ r) : (s.setReg r v).reg q = s.reg q := by
  have h' : r.val ≠ q.val := fun e => h (Fin.ext e.symm)
  simp [State.reg, h']

theorem State.reg_setReg (s : State) (r q : Fin 8) (v : Byte) :
    (s.setReg r v).reg q = if q = r then v else s.reg q := by
  split
  · next h => subst h; exact s.reg_setReg_self q v
  · next h => exact s.reg_setReg_ne v h

@[simp] theorem State.reg_advance (s : State) (n : PcWord) (r : Fin 8) : (s.advance n).reg r = s.reg r := rfl
@[simp] theorem State.reg_setPc (s : State) (p : PcWord) (r : Fin 8) : (s.setPc p).reg r = s.reg r := rfl
@[simp] theorem State.reg_setFl (s : State) (v : Byte) (r : Fin 8) : (s.setFl v).reg r = s.reg r := rfl
@[simp] theorem State.reg_setStatus (s : State) (st : Status) (r : Fin 8) : (s.setStatus st).reg r = s.reg r := rfl
@[simp] theorem State.reg_emit (s : State) (v : Byte) (r : Fin 8) : (s.emit v).reg r = s.reg r := rfl
@[simp] theorem State.reg_setRam (s : State) (m : Memory) (r : Fin 8) : (s.setRam m).reg r = s.reg r := rfl
@[simp] theorem State.reg_takeFault (s : State) (f : CoreFault) (r : Fin 8) : (s.takeFault f).reg r = s.reg r := rfl

@[simp] theorem State.sp_decSp (s : State) : s.decSp.sp = s.sp - 1 := s.reg_setReg_self 7 _

@[simp] theorem State.sp_incSp (s : State) : s.incSp.sp = s.sp + 1 := s.reg_setReg_self 7 _

theorem State.reg_decSp_ne (s : State) {r : Fin 8} (h : r ≠ 7) : s.decSp.reg r = s.reg r := s.reg_setReg_ne _ h

theorem State.reg_incSp_ne (s : State) {r : Fin 8} (h : r ≠ 7) : s.incSp.reg r = s.reg r := s.reg_setReg_ne _ h

/-! ## RAM read through updates -/

/-- A byte of RAM depends on `ram` alone. -/
theorem State.byteAt_eq (s : State) (a : Nat) : s.byteAt a = Memory.read s.ram a := rfl

theorem State.byteAt_congr {s t : State} (h : t.ram = s.ram) (a : Nat) : t.byteAt a = s.byteAt a := by
  simp [State.byteAt, h]

end Sys2Proof.Machine
end

