-- ==== Sys2Proof/Laws/Ops.lean ====
section
/-!
SUPPORT. What each shared operation can do, said once: memory access, register access, the ALU, the flag computation,
taking a fault and ending an instruction. Proofs about a meaning cite these and do not unfold the operations.
-/

namespace Sys2Proof.Machine

/-! ## Widths -/

@[simp] theorem trunc8_toNat (v : Nat) : (trunc8 v).toNat = v % 256 := by simp [trunc8]

@[simp] theorem trunc8_byte (v : Byte) : trunc8 v.toNat = v := by simp [trunc8]

@[simp] theorem zext9_toNat (v : Byte) : (zext9 v).toNat = v.toNat := by
  simp only [zext9, BitVec.toNat_setWidth]
  exact Nat.mod_eq_of_lt (by omega)

@[simp] theorem pcMax_eq : Config.pcMax = 256 := rfl

/-- The 9 bits of PC are the least that hold `PC_MAX` (R14, D4). -/
theorem pcMax_width : 2 ^ 8 ≤ Config.pcMax ∧ Config.pcMax < 2 ^ 9 := by decide

/-! ## Memory access -/

theorem memRead_of_le (s : State) {a : Nat} (h : a ≤ 255) : memRead s a = .ok (s.byteAt a) := if_pos h

theorem memRead_of_gt (s : State) {a : Nat} (h : 255 < a) : memRead s a = .error (.outOfRange a) :=
  if_neg (by omega)

theorem memWrite_of_le (s : State) {a : Nat} (v : Nat) (h : a ≤ 255) :
    memWrite s a v = .ok (s.setRam (Memory.write s.ram a (trunc8 v))) := if_pos h

theorem memWrite_of_gt (s : State) {a : Nat} (v : Nat) (h : 255 < a) : memWrite s a v = .error (.outOfRange a) :=
  if_neg (by omega)

/-- The address of a stack access always exists (R62). -/
theorem State.stackAddr_le (s : State) : s.stackAddr ≤ 255 := by
  have := s.sp.isLt
  unfold State.stackAddr
  omega

/-- A stack read never faults (R27). -/
@[simp] theorem memRead_stack (s : State) : memRead s s.stackAddr = .ok (s.byteAt s.stackAddr) :=
  memRead_of_le s s.stackAddr_le

/-- A stack write never faults (R27). -/
@[simp] theorem memWrite_stack (s : State) (v : Nat) :
    memWrite s s.stackAddr v = .ok (s.setRam (Memory.write s.ram s.stackAddr (trunc8 v))) :=
  memWrite_of_le s v s.stackAddr_le

/-! ## Register access -/

theorem regIndex_of_lt {op : Byte} (h : op.toNat < 8) : regIndex op = .ok ⟨op.toNat, h⟩ := dif_pos h

theorem regIndex_of_ge {op : Byte} (h : 7 < op.toNat) : regIndex op = .error (.invalidRegister op) :=
  dif_neg (by omega)

/-- Everything a register access can do (R12). -/
theorem regIndex_cases (op : Byte) :
    (∃ h : op.toNat < 8, regIndex op = .ok ⟨op.toNat, h⟩) ∨ (7 < op.toNat ∧ regIndex op = .error (.invalidRegister op)) := by
  by_cases h : op.toNat < 8
  · exact .inl ⟨h, regIndex_of_lt h⟩
  · exact .inr ⟨by omega, regIndex_of_ge (by omega)⟩

/-! ## The ALU -/

theorem aluAdd_eq (a b : Byte) : aluAdd a b = a + b := by
  apply BitVec.eq_of_toNat_eq
  simp [aluAdd]

theorem aluMul_eq (a b : Byte) : aluMul a b = a * b := by
  apply BitVec.eq_of_toNat_eq
  simp [aluMul]

/-- A comparison sets one of the three bits and no other (R16, R59). -/
theorem compareBit_cases (a b : Byte) :
    (a = b ∧ compareBit a b = 1) ∨ (b.toNat < a.toNat ∧ compareBit a b = 2) ∨ (a.toNat < b.toNat ∧ compareBit a b = 4) := by
  unfold compareBit
  split
  · next h => exact .inl ⟨h, rfl⟩
  · next h =>
    have hne : a.toNat ≠ b.toNat := fun e => h (BitVec.eq_of_toNat_eq e)
    split
    · next hgt => exact .inr (.inl ⟨hgt, rfl⟩)
    · exact .inr (.inr ⟨by omega, rfl⟩)

/-- At the default `CMP_CLEARS` the old flags do not matter (D3). -/
@[simp] theorem compareFlags_eq (old a b : Byte) : compareFlags old a b = compareBit a b := rfl

/-! ## How an instruction ends -/

@[simp] theorem conclude_ok (s t : State) : conclude s (.ok t) = .next t := rfl

@[simp] theorem conclude_error (s : State) (f : CoreFault) : conclude s (.error f) = .next (s.takeFault f) := rfl

@[simp] theorem raise_eq (s : State) (f : CoreFault) : raise s f = .next (s.takeFault f) := rfl

/-- Everything the end of an instruction can be: the state it reached, or its fault taken in the state it began with (R77). -/
theorem conclude_next {s t : State} {r : Except CoreFault State} (h : conclude s r = .next t) :
    r = .ok t ∨ ∃ f, r = .error f ∧ t = s.takeFault f := by
  cases r with
  | ok u => cases h; exact .inl rfl
  | error f => cases h; exact .inr ⟨f, rfl, rfl⟩

/-- An instruction always ends in a next state. -/
theorem conclude_total (s : State) (r : Except CoreFault State) : ∃ t, conclude s r = .next t := by
  cases r with
  | ok u => exact ⟨u, rfl⟩
  | error f => exact ⟨_, rfl⟩

end Sys2Proof.Machine
end

