-- ==== Sys2Proof/Laws/PerInstr.lean ====
section
/-!
SUPPORT. The families of statements about every instruction as syntax, one lemma per constructor.
-/

/-! ## EncodedLength: an instruction encodes to `1 + operand count` bytes, 1 to 3 (R40) -/

/-- The encoding's length is `1 + operand count`, and it is 1, 2 or 3 (R40). -/
def Sys2Proof.Laws.EncodedLength.Statement (i : Instr) : Prop :=
  (encode i).length = i.length ∧ 1 ≤ i.length ∧ i.length ≤ 3

namespace Sys2Proof.Laws.EncodedLength

/-- The whole family at once; each constructor's lemma is its case (R40). -/
theorem of_instr (i : Instr) : Statement i := by
  cases i <;> simp [Statement, encode, encodeWith, Instr.operands, Instr.length, Instr.mnemonic, operandCount]

theorem hlt : Statement .hlt := of_instr _
theorem ldi (op1 op2 : Byte) : Statement (.ldi op1 op2) := of_instr _
theorem prn (op1 : Byte) : Statement (.prn op1) := of_instr _
theorem add (op1 op2 : Byte) : Statement (.add op1 op2) := of_instr _
theorem mul (op1 op2 : Byte) : Statement (.mul op1 op2) := of_instr _
theorem cmp (op1 op2 : Byte) : Statement (.cmp op1 op2) := of_instr _
theorem push (op1 : Byte) : Statement (.push op1) := of_instr _
theorem pop (op1 : Byte) : Statement (.pop op1) := of_instr _
theorem call (op1 : Byte) : Statement (.call op1) := of_instr _
theorem ret : Statement .ret := of_instr _
theorem jmp (op1 : Byte) : Statement (.jmp op1) := of_instr _
theorem jeq (op1 : Byte) : Statement (.jeq op1) := of_instr _
theorem jne (op1 : Byte) : Statement (.jne op1) := of_instr _

end Sys2Proof.Laws.EncodedLength

/-! ## RegisterOperands: the register operands are operand bytes, and well-formedness is about them alone (R42, R43(a)) -/

/-- Every register operand is one of the operand bytes, and the instruction is well formed exactly when each is in [0,7]. -/
def Sys2Proof.Laws.RegisterOperands.Statement (i : Instr) : Prop :=
  (∀ op ∈ i.registerOperands, op ∈ i.operands) ∧ (i.WellFormed ↔ ∀ op ∈ i.registerOperands, op.toNat < 8)

namespace Sys2Proof.Laws.RegisterOperands

/-- Well-formedness is about the register operands alone (R43(a)). -/
theorem wellFormed_iff (i : Instr) : i.WellFormed ↔ ∀ op ∈ i.registerOperands, op.toNat < 8 := by
  simp only [Instr.WellFormed, Instr.wf, regOperandOk, List.all_eq_true, decide_eq_true_eq]

/-- The whole family at once; each constructor's lemma is its case (R42, R43(a)). -/
theorem of_instr (i : Instr) : Statement i :=
  ⟨by cases i <;> simp [Instr.registerOperands, Instr.operands], wellFormed_iff i⟩

theorem hlt : Statement .hlt := of_instr _
theorem ldi (op1 op2 : Byte) : Statement (.ldi op1 op2) := of_instr _
theorem prn (op1 : Byte) : Statement (.prn op1) := of_instr _
theorem add (op1 op2 : Byte) : Statement (.add op1 op2) := of_instr _
theorem mul (op1 op2 : Byte) : Statement (.mul op1 op2) := of_instr _
theorem cmp (op1 op2 : Byte) : Statement (.cmp op1 op2) := of_instr _
theorem push (op1 : Byte) : Statement (.push op1) := of_instr _
theorem pop (op1 : Byte) : Statement (.pop op1) := of_instr _
theorem call (op1 : Byte) : Statement (.call op1) := of_instr _
theorem ret : Statement .ret := of_instr _
theorem jmp (op1 : Byte) : Statement (.jmp op1) := of_instr _
theorem jeq (op1 : Byte) : Statement (.jeq op1) := of_instr _
theorem jne (op1 : Byte) : Statement (.jne op1) := of_instr _

end Sys2Proof.Laws.RegisterOperands
end

