-- ==== Sys2Proof/Laws/Step.lean ====
section
/-!
SUPPORT. Everything the fetch, the handlers and the step can do, said once (`spec/40_step_hlt_ldi_prn.md` R50, R52;
`spec/60_exceptions.md` R77, R78), for proofs to cite instead of unfolding them.
-/

namespace Sys2Proof.Machine

/-! ## Binding in the handlers -/

@[simp] theorem except_bind_ok {α β : Type} (x : α) (k : α → Except CoreFault β) : (Except.ok x >>= k) = k x := rfl

@[simp] theorem except_bind_error {α β : Type} (f : CoreFault) (k : α → Except CoreFault β) :
    ((Except.error f : Except CoreFault α) >>= k) = .error f := rfl

/-! ## Fetch -/

/-- Everything the fetch can do: no opcode byte, an unknown opcode, an operand byte at 256, or the instruction (R46, R50, R78). -/
theorem fetch_cases (om : OpcodeMap) (s : State) :
    (255 < s.pc.toNat ∧ fetch om s = .error (.outOfRange s.pc.toNat)) ∨
    (s.pc.toNat ≤ 255 ∧ lookupOpcode om (s.byteAt s.pc.toNat) = none ∧
      fetch om s = .error (.unknownInstruction (s.byteAt s.pc.toNat))) ∨
    ∃ m, s.pc.toNat ≤ 255 ∧ lookupOpcode om (s.byteAt s.pc.toNat) = some m ∧
      ((255 < s.pc.toNat + operandCount m ∧ fetch om s = .error (.outOfRange 256)) ∨
       (s.pc.toNat + operandCount m ≤ 255 ∧
        fetch om s = .ok (assemble m (s.byteAt (s.pc.toNat + 1)) (s.byteAt (s.pc.toNat + 2))))) := by
  by_cases hpc : s.pc.toNat ≤ 255
  · refine .inr ?_
    simp only [fetch, memRead_of_le s hpc, except_bind_ok]
    cases hm : lookupOpcode om (s.byteAt s.pc.toNat) with
    | none => exact .inl ⟨hpc, rfl, rfl⟩
    | some m =>
      refine .inr ⟨m, hpc, rfl, ?_⟩
      have hcount : operandCount m = 0 ∨ operandCount m = 1 ∨ operandCount m = 2 := by cases m <;> decide
      rcases hcount with h | h | h
      · refine .inr ⟨by omega, ?_⟩
        cases m <;> first | rfl | (exfalso; revert h; decide)
      · by_cases h1 : s.pc.toNat + 1 ≤ 255
        · refine .inr ⟨by omega, ?_⟩
          simp only [h, memRead_of_le s h1]
          cases m <;> first | rfl | (exfalso; revert h; decide)
        · have e : s.pc.toNat + 1 = 256 := by omega
          exact .inl ⟨by omega, by simp [h, e, memRead_of_gt s (show 255 < 256 by decide)]⟩
      · by_cases h1 : s.pc.toNat + 1 ≤ 255
        · by_cases h2 : s.pc.toNat + 2 ≤ 255
          · refine .inr ⟨by omega, ?_⟩
            simp only [h, memRead_of_le s h1, memRead_of_le s h2]
            rfl
          · have e : s.pc.toNat + 2 = 256 := by omega
            exact .inl ⟨by omega, by
              simp [h, e, memRead_of_le s h1, memRead_of_gt s (show 255 < 256 by decide)]⟩
        · have e : s.pc.toNat + 1 = 256 := by omega
          exact .inl ⟨by omega, by simp [h, e, memRead_of_gt s (show 255 < 256 by decide)]⟩
  · exact .inl ⟨by omega, by simp only [fetch, memRead_of_gt s (show 255 < s.pc.toNat by omega)]; rfl⟩

/-! ## The handlers -/

/-- Everything a handler can do to the fault record and STATUS: take `InvalidRegister` of one of the instruction's register
operands in the state it began with, or leave FCAUSE and FINFO alone and change STATUS only if it is HLT (R19, R52, R77). -/
theorem exec_cases {i : Instr} {s t : State} (h : exec i s = .next t) :
    (∃ op ∈ i.registerOperands, 7 < op.toNat ∧ t = s.takeFault (.invalidRegister op)) ∨
    (t.fcause = s.fcause ∧ t.finfo = s.finfo ∧ t.status = if i = .hlt then .halted else s.status) := by
  cases i with
  | hlt => cases h; exact .inr ⟨rfl, rfl, rfl⟩
  | ret =>
    simp only [exec, execRet, memRead_stack, except_bind_ok, conclude_ok] at h
    cases h; exact .inr ⟨rfl, rfl, rfl⟩
  | ldi op1 op2 | prn op1 | jmp op1 =>
    simp only [exec, execLdi, execPrn, execJmp] at h
    rcases regIndex_cases op1 with ⟨_, e⟩ | ⟨h1, e⟩
    · rw [e] at h; cases h; exact .inr ⟨rfl, rfl, rfl⟩
    · rw [e] at h; cases h; exact .inl ⟨op1, by simp [Instr.registerOperands], h1, rfl⟩
  | push op1 | pop op1 | call op1 =>
    simp only [exec, execPush, execPop, execCall, memWrite_stack, memRead_stack] at h
    rcases regIndex_cases op1 with ⟨_, e⟩ | ⟨h1, e⟩
    · rw [e] at h; cases h; exact .inr ⟨rfl, rfl, rfl⟩
    · rw [e] at h; cases h; exact .inl ⟨op1, by simp [Instr.registerOperands], h1, rfl⟩
  | jeq op1 | jne op1 =>
    simp only [exec, execJeq, execJne, jumpIf] at h
    split at h
    · rcases regIndex_cases op1 with ⟨_, e⟩ | ⟨h1, e⟩
      · rw [e] at h; cases h; exact .inr ⟨rfl, rfl, rfl⟩
      · rw [e] at h; cases h; exact .inl ⟨op1, by simp [Instr.registerOperands], h1, rfl⟩
    · cases h; exact .inr ⟨rfl, rfl, rfl⟩
  | add op1 op2 | mul op1 op2 | cmp op1 op2 =>
    simp only [exec, execAdd, execMul, execCmp] at h
    rcases regIndex_cases op1 with ⟨_, e⟩ | ⟨h1, e⟩
    · rcases regIndex_cases op2 with ⟨_, e'⟩ | ⟨h2, e'⟩
      · rw [e, e'] at h; cases h; exact .inr ⟨rfl, rfl, rfl⟩
      · rw [e, e'] at h; cases h; exact .inl ⟨op2, by simp [Instr.registerOperands], h2, rfl⟩
    · rw [e] at h; cases h; exact .inl ⟨op1, by simp [Instr.registerOperands], h1, rfl⟩

/-! ## The step, at every `OPCODE_MAP` -/

theorem singleStep_of_not_running {om : OpcodeMap} {s : State} (h : ¬ s.Running) : singleStep om s = .next s := by
  cases hs : s.status with
  | running => exact absurd hs h
  | halted | faulted => simp [singleStep, hs]

theorem singleStep_of_fetch_ok {om : OpcodeMap} {s : State} {i : Instr} (hr : s.Running) (h : fetch om s = .ok i) :
    singleStep om s = exec i s := by
  have hr : s.status = .running := hr
  simp [singleStep, hr, h]

theorem singleStep_of_fetch_error {om : OpcodeMap} {s : State} {f : CoreFault} (hr : s.Running)
    (h : fetch om s = .error f) : singleStep om s = .next (s.takeFault f) := by
  have hr : s.status = .running := hr
  simp [singleStep, hr, h]

/-- Everything a step can do: nothing in a terminal state, the fetch's fault, or the fetched instruction (R19, R50). -/
theorem singleStep_cases {om : OpcodeMap} {s t : State} (h : singleStep om s = .next t) :
    (¬ s.Running ∧ t = s) ∨ (s.Running ∧ ∃ f, fetch om s = .error f ∧ t = s.takeFault f) ∨
    (s.Running ∧ ∃ i, fetch om s = .ok i ∧ exec i s = .next t) := by
  by_cases hr : s.Running
  · cases hf : fetch om s with
    | ok i => exact .inr (.inr ⟨hr, i, rfl, (singleStep_of_fetch_ok hr hf) ▸ h⟩)
    | error f =>
      rw [singleStep_of_fetch_error hr hf] at h
      cases h
      exact .inr (.inl ⟨hr, f, rfl, rfl⟩)
  · rw [singleStep_of_not_running hr] at h
    cases h
    exact .inl ⟨hr, rfl⟩

/-! The host's step is the single step at the default map. -/

theorem step_of_not_running {s : State} (h : ¬ s.Running) : step s = .next s := singleStep_of_not_running h

theorem step_of_fetch_ok {s : State} {i : Instr} (hr : s.Running) (h : fetch opcodeMap s = .ok i) : step s = exec i s :=
  singleStep_of_fetch_ok hr h

theorem step_of_fetch_error {s : State} {f : CoreFault} (hr : s.Running) (h : fetch opcodeMap s = .error f) :
    step s = .next (s.takeFault f) := singleStep_of_fetch_error hr h

theorem step_cases {s t : State} (h : step s = .next t) :
    (¬ s.Running ∧ t = s) ∨ (s.Running ∧ ∃ f, fetch opcodeMap s = .error f ∧ t = s.takeFault f) ∨
    (s.Running ∧ ∃ i, fetch opcodeMap s = .ok i ∧ exec i s = .next t) := singleStep_cases h

/-! ## Runs -/

@[simp] theorem run_zero (s : State) : run 0 s = .next s := rfl

/-- The host's run of `k + 1` steps, for any core. -/
theorem coreRun_succ (M : Host.Core) {s t : M.State} (k : Nat) (h : M.step s = .next t) : M.run (k + 1) s = M.run k t := by
  rw [Host.Core.run, h]

/-- A run of `k + 1` steps is a step and a run of `k` steps (R86). -/
theorem run_succ {s t : State} (k : Nat) (h : step s = .next t) : run (k + 1) s = run k t :=
  coreRun_succ core k h

@[simp] theorem runAt_zero (om : OpcodeMap) (s : State) : runAt om 0 s = .next s := rfl

/-- `run_succ` at every `OPCODE_MAP`. -/
theorem runAt_succ {om : OpcodeMap} {s t : State} (k : Nat) (h : singleStep om s = .next t) :
    runAt om (k + 1) s = runAt om k t :=
  coreRun_succ (coreAt om) k h

end Sys2Proof.Machine
end

