-- ==== Sys2Proof/Tests/Slice0.lean ====
section
/-!
SUPPORT. Tests: the well-formedness smoke, a word of each instruction written out from `spec/30_encoding.md` R42, the vectors of
`spec/95_test_vectors.md` (named V<n> there), and a witness for the hypotheses of each statement.
-/

namespace Sys2Proof.Tests

open Sys2Proof.Machine Sys2Proof.Claims

/-- The reset state with another PC and RAM. -/
def st (pc : PcWord) (ram : Memory) : State := { State.reset with pc := pc, ram := ram }

/-- The state an outcome answers (the reset state if it answers none). -/
def after : Host.Outcome State Fault Refusal → State
  | .next t => t
  | .fault _ => State.reset
  | .refused _ => State.reset

/-! ## Well-formedness: an ill-formed term for each check (R43(a)) -/

theorem test_wf_refuses_each_register_operand :
    ¬ (Instr.ldi 8 0).WellFormed ∧ ¬ (Instr.prn 8).WellFormed ∧ ¬ (Instr.add 8 0).WellFormed ∧ ¬ (Instr.add 0 8).WellFormed ∧
    ¬ (Instr.mul 8 0).WellFormed ∧ ¬ (Instr.mul 0 8).WellFormed ∧ ¬ (Instr.cmp 8 0).WellFormed ∧ ¬ (Instr.cmp 0 8).WellFormed ∧
    ¬ (Instr.push 8).WellFormed ∧ ¬ (Instr.pop 8).WellFormed ∧ ¬ (Instr.call 8).WellFormed ∧ ¬ (Instr.jmp 8).WellFormed ∧
    ¬ (Instr.jeq 8).WellFormed ∧ ¬ (Instr.jne 0xFF).WellFormed := by decide

theorem test_wf_accepts_r7_and_any_immediate : (Instr.ldi 7 0xFF).WellFormed ∧ Instr.ret.WellFormed := by decide

/-! ## Decoding: one word per instruction, bit by bit from R42 (op1 in bits 15..8, op2 in bits 23..16) -/

theorem test_decode_hlt : decodeTableWord 8 0b00000001 = some .hlt := by decide
theorem test_decode_ldi : decodeTableWord 24 0b00001000_00000011_10000010 = some (.ldi 3 8) := by decide
theorem test_decode_prn : decodeTableWord 16 0b00000101_01000111 = some (.prn 5) := by decide
theorem test_decode_add : decodeTableWord 24 0b00000001_00000111_10100000 = some (.add 7 1) := by decide
theorem test_decode_mul : decodeTableWord 24 0b00000001_00000010_10100010 = some (.mul 2 1) := by decide
theorem test_decode_cmp : decodeTableWord 24 0b00001000_00000100_10100111 = some (.cmp 4 8) := by decide
theorem test_decode_push : decodeTableWord 16 0b00000110_01000101 = some (.push 6) := by decide
theorem test_decode_pop : decodeTableWord 16 0b00000001_01000110 = some (.pop 1) := by decide
theorem test_decode_call : decodeTableWord 16 0b00000001_01010000 = some (.call 1) := by decide
theorem test_decode_ret : decodeTableWord 8 0b00010001 = some .ret := by decide
theorem test_decode_jmp : decodeTableWord 16 0b00000011_01010100 = some (.jmp 3) := by decide
theorem test_decode_jeq : decodeTableWord 16 0b10011001_01010101 = some (.jeq 0x99) := by decide
theorem test_decode_jne : decodeTableWord 16 0b00000011_01010110 = some (.jne 3) := by decide

/-- V3, V1: 0x83 and 0x00 are no opcodes, and a lone LDI opcode is no instruction. -/
theorem test_decode_rejects : decode [0x83, 0x00, 0x20] = .error (.unknownOpcode 0x83) ∧
    decode [0x00] = .error (.unknownOpcode 0x00) ∧ decode [0x82] = .error (.truncated 1) ∧
    decode [0x82, 0x09] = .error (.truncated 2) := ⟨rfl, rfl, rfl, rfl⟩

/-! ## One step each, from the vectors of 95_test_vectors.md -/

/-- V13, and V4: a one-byte instruction at the last address is fine. -/
theorem test_hlt : (after (step (st 0x10 [(0x10, 0x01)]))).status = .halted ∧ (after (step (st 0x10 [(0x10, 0x01)]))).pc = 0x11 ∧
    (after (step (st 0xFF [(0xFF, 0x01)]))).pc = 0x100 := by decide

/-- V15. -/
theorem test_ldi : (after (step (st 0x10 [(0x10, 0x82), (0x11, 3), (0x12, 0xFF)]))).reg 3 = 0xFF ∧
    (after (step (st 0x10 [(0x10, 0x82), (0x11, 3), (0x12, 0xFF)]))).pc = 0x13 := by decide

/-- V7: the op2 fetch faults before op1 = 9 is checked. -/
theorem test_ldi_at_the_top : (after (step (st 0xFE [(0xFE, 0x82), (0xFF, 9)]))) =
    { st 0xFE [(0xFE, 0x82), (0xFF, 9)] with status := .faulted, fcause := .outOfRange, finfo := 0x100 } := by decide

/-- V20. -/
theorem test_prn : (after (step (st 0x10 [(0x10, 0x47), (0x11, 7)]))).out = [244] := by decide

/-- V22. -/
theorem test_prn_bad_register : (after (step (st 0x10 [(0x10, 0x47), (0x11, 0xFF)]))).finfo = 0x0FF ∧
    (after (step (st 0x10 [(0x10, 0x47), (0x11, 0xFF)]))).fcause.code = 3 ∧
    (after (step (st 0x10 [(0x10, 0x47), (0x11, 0xFF)]))).out = [] := by decide

/-- V23. -/
theorem test_add : (after (exec (.add 0 1) ((State.reset.setReg 0 250).setReg 1 10))).reg 0 = 4 := by decide

/-- V32: op1 is reported first. -/
theorem test_add_two_bad_registers : (after (exec (.add 8 9) State.reset)).finfo = 0x008 := by decide

/-- V35, V36. -/
theorem test_mul : (after (exec (.mul 0 0) (State.reset.setReg 0 255))).reg 0 = 1 ∧
    (after (exec (.mul 0 0) (State.reset.setReg 0 17))).reg 0 = 33 := by decide

/-- V44, V45: unsigned. -/
theorem test_cmp : (after (exec (.cmp 0 1) ((State.reset.setReg 0 0x80).setReg 1 0x7F))).fl = 0x02 ∧
    (after (exec (.cmp 0 1) (State.reset.setReg 1 0xFF))).fl = 0x04 := by decide

/-- S6 and V47: earlier bits are cleared; under the recorded alternative `CMP_CLEARS = false` S6 gives 0x04, 0x06, 0x07. -/
theorem test_cmp_clears : (after (exec (.cmp 0 0) (State.reset.setFl 0x04))).fl = 0x01 ∧
    compareFlagsWith false 0x00 5 10 = 0x04 ∧ compareFlagsWith false 0x04 10 5 = 0x06 ∧
    compareFlagsWith false 0x06 5 5 = 0x07 := by decide

/-- V50: SP wraps. -/
theorem test_push : (after (exec (.push 0) ((State.reset.setReg 0 0xAB).setReg 7 0x00))).sp = 0xFF ∧
    (after (exec (.push 0) ((State.reset.setReg 0 0xAB).setReg 7 0x00))).ram = [(0xFF, 0xAB)] := by decide

/-- V51: the decremented SP is pushed. -/
theorem test_push_r7 : (after (exec (.push 7) State.reset)).ram = [(0xF3, 0xF3)] := by decide

/-- V54: SP wraps, and the popped cell keeps its byte. -/
theorem test_pop : (after (exec (.pop 0) ((st 0 [(0xFF, 0x77)]).setReg 7 0xFF))).reg 0 = 0x77 ∧
    (after (exec (.pop 0) ((st 0 [(0xFF, 0x77)]).setReg 7 0xFF))).sp = 0x00 ∧
    (after (exec (.pop 0) ((st 0 [(0xFF, 0x77)]).setReg 7 0xFF))).ram = [(0xFF, 0x77)] := by decide

/-- V55: popped, then incremented. -/
theorem test_pop_r7 : (after (exec (.pop 7) ((st 0 [(0xF3, 0x20)]).setReg 7 0xF3))).sp = 0x21 := by decide

/-- V60. -/
theorem test_call : (after (exec (.call 1) ((st 0x06 []).setReg 1 0x0B))).pc = 0x0B ∧
    (after (exec (.call 1) ((st 0x06 []).setReg 1 0x0B))).ram = [(0xF3, 0x08)] := by decide

/-- V61 and V62: the return address 256 is pushed as 0; CALL R7 jumps to the decremented SP. -/
theorem test_call_corners : (after (exec (.call 1) ((st 0xFE [(0xF3, 9)]).setReg 1 0x10))).byteAt 0xF3 = 0x00 ∧
    (after (exec (.call 7) (st 0x00 []))).pc = 0xF3 := by decide

/-- V66. -/
theorem test_ret : (after (exec .ret ((st 0 [(0xFF, 0x30)]).setReg 7 0xFF))).pc = 0x30 ∧
    (after (exec .ret ((st 0 [(0xFF, 0x30)]).setReg 7 0xFF))).sp = 0x00 := by decide

/-- V68. -/
theorem test_jmp : (after (exec (.jmp 3) ((st 0x14 []).setReg 3 0x0C))).pc = 0x0C := by decide

/-- V71 to V74. -/
theorem test_jeq : (after (exec (.jeq 2) (((st 0x10 []).setReg 2 0x20).setFl 0x01))).pc = 0x20 ∧
    (after (exec (.jeq 2) (((st 0x10 []).setReg 2 0x20).setFl 0x02))).pc = 0x12 := by decide

/-- V75 and V76. -/
theorem test_jeq_bad_register : (after (exec (.jeq 0x99) (st 0x10 []))) = st 0x12 [] ∧
    (after (exec (.jeq 0x99) ((st 0x10 []).setFl 0x01))).finfo = 0x099 := by decide

/-- V79 and V80. -/
theorem test_jne : (after (exec (.jne 3) (((st 0x10 []).setReg 3 0x0C).setFl 0x01))).pc = 0x12 ∧
    (after (exec (.jne 3) ((st 0x10 []).setReg 3 0x0C))).pc = 0x0C := by decide

/-- V81 and V82. -/
theorem test_jne_bad_register : (after (exec (.jne 0x99) ((st 0x10 []).setFl 0x01))).pc = 0x12 ∧
    (after (exec (.jne 0x99) (st 0x10 []))).finfo = 0x099 := by decide

/-- V9, V12 and V10: an unknown opcode at 255; the first step with nothing loaded; a halted core. -/
theorem test_step : (after (step (st 0xFF [(0xFF, 0xFF)]))).fcause.code = 2 ∧
    after (step State.reset) = { State.reset with status := .faulted, fcause := .unknownInstruction } ∧
    after (step (State.reset.setStatus .halted)) = State.reset.setStatus .halted := by decide

/-! ## Witnesses: states and operands that meet the hypotheses of each statement, clause by clause -/

theorem witness_DecodeInvertsEncodeForEveryMap : opcodeMap.Injective := opcodeMap_injective

theorem witness_DecodedBytesAreTheEncoding : decodeWith opcodeMap [0x82, 7, 0xFF, 1] = .ok (.ldi 7 0xFF, [1]) := rfl

theorem witness_UnknownOpcodesAreRejected : (∀ m : Mnemonic, opcodeMap m ≠ 0xFF) ∧
    (st 255 [(255, 0xFF)]).Running ∧ (st 255 [(255, 0xFF)]).pc.toNat ≤ 255 ∧ (st 255 [(255, 0xFF)]).byteAt 255 = 0xFF := by
  refine ⟨fun m => ?_, by decide⟩
  cases m <;> decide

theorem witness_StepRunsTheDecodedInstruction :
    (st 255 [(255, 0x11)]).Running ∧ decode (st 255 [(255, 0x11)]).codeBytes = .ok (.ret, []) := ⟨rfl, rfl⟩

theorem witness_StepRefinesTheDecoder :
    (st 256 []).Running ∧ (st 256 []).pc.toNat ≤ 256 ∧ decode (st 256 []).codeBytes = .error (.truncated 0) ∧
    decode (st 255 [(255, 0x47)]).codeBytes = .error (.truncated 1) ∧
    decode (st 255 []).codeBytes = .error (.unknownOpcode 0) ∧
    decode (st 253 [(253, 0x82)]).codeBytes = .ok (.ldi 0 0, []) :=
  ⟨rfl, by decide, rfl, rfl, rfl, rfl⟩

theorem witness_FaultsAreMetInStepOrder :
    (st 256 []).Running ∧ (st 256 []).pc.toNat = 256 ∧ (st 0 []).pc.toNat ≤ 256 ∧
    7 < (8 : Byte).toNat ∧ 7 < (255 : Byte).toNat := by decide

theorem witness_TerminalStatesNeverChange :
    ¬ (State.reset.setStatus .halted).Running ∧ ¬ (State.reset.setStatus .faulted).Running := by decide

theorem witness_FaultsArePrecise : State.reset.Running ∧ ∃ t, step State.reset = .next t ∧ t.Faulted :=
  ⟨rfl, _, rfl, by decide⟩

theorem witness_OnlyHltHalts : (st 255 [(255, 0x01)]).Running ∧ ∃ t, step (st 255 [(255, 0x01)]) = .next t ∧ t.Halted :=
  ⟨rfl, _, rfl, by decide⟩

theorem witness_LdiLoadsTheImmediate : (7 : Byte).toNat < 8 ∧ 7 < (8 : Byte).toNat ∧
    StartsWithin (st 254 [(254, 0x82)]) 0x82 2 ∧ StartsWithin (st 255 [(255, 0x82)]) 0x82 2 := by decide

theorem witness_PrnEmitsTheRegister : (7 : Byte).toNat < 8 ∧ 7 < (8 : Byte).toNat ∧
    StartsWithin (st 255 [(255, 0x47)]) 0x47 1 := by decide

theorem witness_AddWritesTheSumModulo256 : (7 : Byte).toNat < 8 ∧ 7 < (8 : Byte).toNat ∧
    StartsWithin (st 254 [(254, 0xA0)]) 0xA0 2 := by decide

theorem witness_MulWritesTheProductModulo256 : (7 : Byte).toNat < 8 ∧ 7 < (8 : Byte).toNat ∧
    StartsWithin (st 254 [(254, 0xA2)]) 0xA2 2 := by decide

theorem witness_CmpWritesExactlyOneFlag : (7 : Byte).toNat < 8 ∧ 7 < (8 : Byte).toNat ∧
    StartsWithin (st 254 [(254, 0xA7)]) 0xA7 2 := by decide

theorem witness_FlagsAreExclusiveAfterCmp : (0 : Byte).toNat < 8 ∧ (7 : Byte).toNat < 8 ∧
    ∃ t, exec (.cmp 0 7) State.reset = .next t := ⟨by decide, by decide, _, rfl⟩

theorem witness_OnlyCmpWritesAndJumpsReadFlags : Instr.hlt.mnemonic ≠ .cmp ∧
    (∃ t, exec .hlt State.reset = .next t) ∧ (∃ t, exec (.jeq 7) State.reset = .next t) ∧
    (∃ t, exec (.cmp 0 7) State.reset = .next t) ∧ (0xFE : Byte).getLsbD 0 = State.reset.fl.getLsbD 0 :=
  ⟨by decide, ⟨_, rfl⟩, ⟨_, rfl⟩, ⟨_, rfl⟩, by decide⟩

theorem witness_PushStoresBelowTheStackTop : (6 : Byte).toNat < 8 ∧ (7 : Byte).toNat < 8 ∧ Memory.wf (st 0 [(0, 1)]).ram ∧
    7 < (8 : Byte).toNat ∧ StartsWithin (st 255 [(255, 0x45)]) 0x45 1 := by decide

theorem witness_PopLoadsTheStackTop : (6 : Byte).toNat < 7 ∧ (6 : Byte).toNat ≠ 7 ∧ (7 : Byte).toNat = 7 ∧
    7 < (8 : Byte).toNat ∧ Memory.wf (st 0 [(0, 1)]).ram ∧ StartsWithin (st 255 [(255, 0x46)]) 0x46 1 := by decide

theorem witness_StackPointerWraps : (6 : Byte).toNat < 8 ∧ (7 : Byte).toNat < 8 ∧
    (∃ t, exec (.push 7) (State.reset.setReg 7 0x00) = .next t ∧ t.sp = 0xFF) ∧
    (∃ t, exec (.call 7) (State.reset.setReg 7 0x00) = .next t ∧ t.sp = 0xFF) ∧
    (∃ t, exec (.pop 6) (State.reset.setReg 7 0xFF) = .next t ∧ t.sp = 0x00) ∧
    (∃ t, exec (.pop 7) ((st 0 [(0xF3, 0xFF)]).setReg 7 0xF3) = .next t ∧ t.sp = 0x00) ∧
    ∃ t, exec .ret (State.reset.setReg 7 0xFF) = .next t ∧ t.sp = 0x00 :=
  ⟨by decide, by decide, ⟨_, rfl, by decide⟩, ⟨_, rfl, by decide⟩, ⟨_, rfl, by decide⟩, ⟨_, rfl, by decide⟩, ⟨_, rfl, by decide⟩⟩

theorem witness_CallPushesTheReturnAddress : (6 : Byte).toNat < 8 ∧ (7 : Byte).toNat < 8 ∧ 7 < (8 : Byte).toNat ∧
    Memory.wf (st 254 []).ram ∧ StartsWithin (st 255 [(255, 0x50)]) 0x50 1 := by decide

theorem witness_RetPopsThePc : (1 : Byte).toNat < 8 ∧ (st 254 []).pc.toNat ≤ 254 ∧ (st 253 []).pc.toNat ≤ 254 ∧
    Memory.wf (st 254 []).ram ∧ ∃ t, exec (.call 1) (st 254 []) = .next t := ⟨by decide, by decide, by decide, by decide, _, rfl⟩

theorem witness_JmpSetsThePc : (7 : Byte).toNat < 8 ∧ 7 < (8 : Byte).toNat ∧ StartsWithin (st 255 [(255, 0x54)]) 0x54 1 := by
  decide

theorem witness_JeqJumpsWhenEqual : (7 : Byte).toNat < 8 ∧ 7 < (8 : Byte).toNat ∧ (State.reset.setFl 1).fl.getLsbD 0 = true ∧
    (State.reset.setFl 6).fl.getLsbD 0 = false ∧ StartsWithin (st 255 [(255, 0x55)]) 0x55 1 := by decide

theorem witness_JneJumpsWhenNotEqual : (7 : Byte).toNat < 8 ∧ 7 < (8 : Byte).toNat ∧ (State.reset.setFl 1).fl.getLsbD 0 = true ∧
    (State.reset.setFl 6).fl.getLsbD 0 = false ∧ StartsWithin (st 255 [(255, 0x56)]) 0x56 1 := by decide

theorem witness_JumpsFollowThePriorComparison : (0 : Byte).toNat < 8 ∧ (7 : Byte).toNat < 8 ∧
    (∃ t, exec (.cmp 0 7) State.reset = .next t) ∧ ∃ t, exec (.cmp 7 7) State.reset = .next t :=
  ⟨by decide, by decide, ⟨_, rfl⟩, ⟨_, rfl⟩⟩

theorem witness_TransfersLandInMemory : (Instr.jeq 7).WellFormed ∧ flagE (State.reset.setFl 1).fl = true ∧
    flagE State.reset.fl = false ∧ (∃ t, exec (.jeq 7) (State.reset.setFl 1) = .next t) ∧
    (∃ t, exec (.jne 7) State.reset = .next t) ∧ (∃ t, exec .ret State.reset = .next t) ∧
    (∃ t, exec (.call 7) State.reset = .next t) ∧ ∃ t, exec (.jmp 7) State.reset = .next t :=
  ⟨by decide, by decide, by decide, ⟨_, rfl⟩, ⟨_, rfl⟩, ⟨_, rfl⟩, ⟨_, rfl⟩, ⟨_, rfl⟩⟩

theorem witness_PcAdvancesByTheTable : Instr.hlt.WellFormed ∧ (Instr.call 7).WellFormed ∧
    (∃ t, exec .hlt (st 255 []) = .next t) ∧ ∃ t, exec (.call 7) (st 254 []) = .next t :=
  ⟨by decide, by decide, ⟨_, rfl⟩, ⟨_, rfl⟩⟩

theorem witness_FrameOfLdiAddMul : (∃ t, exec (.ldi 7 0xFF) State.reset = .next t) ∧ (Instr.ldi 7 0xFF).WellFormed ∧
    (∃ t, exec (.add 0 7) State.reset = .next t) ∧ (∃ t, exec (.mul 0 8) State.reset = .next t) ∧
    (0 : Fin 8).val ≠ (7 : Byte).toNat := ⟨⟨_, rfl⟩, by decide, ⟨_, rfl⟩, ⟨_, rfl⟩, by decide⟩

theorem witness_FrameOfPushCall : (∃ t, exec (.push 7) State.reset = .next t) ∧ (∃ t, exec (.call 8) State.reset = .next t) ∧
    (Instr.push 7).WellFormed ∧ (0xF4 : Nat) ≠ State.reset.decSp.stackAddr := ⟨⟨_, rfl⟩, ⟨_, rfl⟩, by decide, by decide⟩

theorem witness_FrameOfPopRet : (∃ t, exec (.pop 6) State.reset = .next t) ∧ (6 : Byte).toNat < 8 ∧
    (5 : Fin 8).val ≠ (6 : Byte).toNat ∧ ∃ t, exec .ret State.reset = .next t := ⟨⟨_, rfl⟩, by decide, by decide, ⟨_, rfl⟩⟩

theorem witness_FrameOfJumps : (∃ t, exec (.jmp 7) State.reset = .next t) ∧ (∃ t, exec (.jeq 8) State.reset = .next t) ∧
    (∃ t, exec (.jne 8) State.reset = .next t) ∧ (Instr.jmp 7).WellFormed := ⟨⟨_, rfl⟩, ⟨_, rfl⟩, ⟨_, rfl⟩, by decide⟩

theorem witness_FrameOfCmpPrnHlt : (∃ t, exec (.cmp 0 7) State.reset = .next t) ∧ (∃ t, exec (.prn 7) State.reset = .next t) ∧
    (∃ t, exec .hlt State.reset = .next t) ∧ (Instr.cmp 0 7).WellFormed ∧ Instr.cmp 0 7 ≠ .hlt ∧ Instr.hlt ≠ .cmp 0 7 ∧
    Instr.hlt ≠ .prn 0 := ⟨⟨_, rfl⟩, ⟨_, rfl⟩, ⟨_, rfl⟩, by decide, by decide, by decide, by decide⟩

theorem witness_MemReadContract : (0 : Nat) ≤ 255 ∧ (255 : Nat) ≤ 255 ∧ (255 : Nat) < 256 := by decide

theorem witness_MemWriteContract : Memory.wf (st 0 [(0, 1), (255, 2)]).ram ∧ (255 : Nat) ≤ 255 ∧ (255 : Nat) < 256 := by decide

theorem witness_OnlyPushAndCallWriteMemory : (st 254 [(254, 0x45), (255, 7)]).Running ∧
    ∃ t, step (st 254 [(254, 0x45), (255, 7)]) = .next t ∧ t.byteAt 0xF3 ≠ (st 254 [(254, 0x45), (255, 7)]).byteAt 0xF3 :=
  ⟨rfl, _, rfl, by decide⟩

theorem witness_RegisterAccessContract : (7 : Byte).toNat < 8 ∧ 7 < (8 : Byte).toNat := by decide

/-- The stored byte is the next opcode, the next op1 and the next op2 (PUSH at 0x10), and the opcode fetched after CALL R7. -/
theorem witness_NextFetchSeesTheStore : (0 : Byte).toNat < 8 ∧ Memory.wf (st 0x10 []).ram ∧
    (∃ t, exec (.push 0) ((st 0x10 []).setReg 7 0x13) = .next t ∧ t.pc.toNat = t.sp.toNat ∧ t.pc.toNat ≤ 255) ∧
    (∃ t, exec (.push 0) ((st 0x10 []).setReg 7 0x14) = .next t ∧ t.pc.toNat + 1 = t.sp.toNat) ∧
    (∃ t, exec (.push 0) ((st 0x10 []).setReg 7 0x15) = .next t ∧ t.pc.toNat + 2 = t.sp.toNat) ∧ (7 : Byte).toNat < 8 ∧
    ∃ t, exec (.call 7) (st 0x10 []) = .next t ∧ t.pc.toNat = t.sp.toNat :=
  ⟨by decide, by decide, ⟨_, rfl, by decide⟩, ⟨_, rfl, by decide⟩, ⟨_, rfl, by decide⟩, by decide, ⟨_, rfl, by decide⟩⟩

theorem witness_OutputIsAppendOnly : (∃ t, step (st 254 [(254, 0x47), (255, 7)]) = .next t ∧ t.out = [244]) ∧
    ∃ t, run 1 (st 254 [(254, 0x47), (255, 7)]) = .next t := ⟨⟨_, rfl, by decide⟩, ⟨_, rfl⟩⟩

theorem witness_FaultRecordAndOutputAreNeverRead : State.reset.Running ∧ (∃ t, step State.reset = .next t ∧ t.Faulted) ∧
    ∃ t, step (st 254 [(254, 0x47), (255, 7)]) = .next t ∧ ¬ t.Faulted := ⟨rfl, ⟨_, rfl, by decide⟩, ⟨_, rfl, by decide⟩⟩

theorem witness_OnlyFetchIsOutOfRange : (st 256 []).Inv ∧ (st 256 []).Running ∧
    (∃ t, step (st 256 []) = .next t ∧ t.fcause = .outOfRange) ∧
    (∃ t, step (st 255 [(255, 0x47)]) = .next t ∧ t.fcause = .outOfRange) ∧
    ∃ t, step (st 254 [(254, 0x82)]) = .next t ∧ t.fcause = .outOfRange :=
  ⟨by decide, rfl, ⟨_, rfl, by decide⟩, ⟨_, rfl, by decide⟩, ⟨_, rfl, by decide⟩⟩

theorem witness_ResetLoadsTheImage : (List.replicate 256 (1 : Byte)).length ≤ 256 ∧
    256 < (List.replicate 257 (1 : Byte)).length := by
  rw [List.length_replicate, List.length_replicate]; decide

theorem witness_FirstStepFetchesAddressZero : decode [0x01, 0x00, 0x00] = .ok (.hlt, [0x00, 0x00]) := rfl

theorem witness_StepKeepsTheInvariant : (st 256 []).Inv ∧ (∃ t, step (st 256 []) = .next t) ∧
    (st 254 [(254, 0x45)]).Inv ∧ ∃ t, step (st 254 [(254, 0x45)]) = .next t := ⟨by decide, ⟨_, rfl⟩, by decide, ⟨_, rfl⟩⟩

theorem witness_EveryReachableStateMeetsTheInvariant :
    ∃ t, run 1 (State.resetImage (Vector.replicate 256 0)) = .next t := by
  have h : State.resetImage (Vector.replicate 256 0) = State.reset := by decide +kernel
  rw [h]
  exact ⟨_, rfl⟩

/-- An `OPCODE_MAP` other than the default: HLT is 0x00, and the default bytes of HLT and LDI are no opcodes. -/
def otherMap (m : Mnemonic) : Byte := if m = .hlt then 0x00 else opcodeMap m + 0x01

theorem witness_StepAtEveryMapRefinesItsDecoder : (st 255 []).Running ∧ (st 255 []).pc.toNat ≤ Config.pcMax ∧
    decodeWith otherMap (st 255 []).codeBytes = .ok (.hlt, []) ∧ ¬ (State.reset.setStatus .halted).Running ∧
    (∃ t, singleStep otherMap (st 255 []) = .next t ∧ t.Halted) ∧
    ∃ t, singleStep otherMap (st 255 [(255, 0x82)]) = .next t ∧ t.fcause = .unknownInstruction :=
  ⟨rfl, by decide, rfl, by decide, ⟨_, rfl, by decide⟩, ⟨_, rfl, by decide⟩⟩

theorem witness_InvariantIsKeptAtEveryMap : (st 256 []).InvAt otherMap ∧ (∃ t, singleStep otherMap (st 256 []) = .next t) ∧
    ∃ t, runAt otherMap 1 (State.resetImage (Vector.replicate 256 0)) = .next t := by
  have h : State.resetImage (Vector.replicate 256 0) = State.reset := by decide +kernel
  rw [h]
  exact ⟨by decide, ⟨_, rfl⟩, ⟨_, rfl⟩⟩

theorem witness_FetchWordIsRunNext : Memory.wf (st 253 []).ram ∧ (st 253 []).pc.toNat ≤ 253 ∧
    decodeTableWord 24 0xFF0782 = some (.ldi 7 0xFF) := by decide

end Sys2Proof.Tests
end

section
/-!
PROOFS. The stack instructions and SP (`spec/42_stack_push_pop.md` R62 to R64, `spec/43_control_call_ret_jmp_jeq_jne.md` R66, R67):
SP read through each update, the state that each of PUSH, POP, CALL and RET reaches, and O23.
-/

namespace Sys2Proof.Machine

/-! ## SP read through updates (R13) -/

section Sp

variable (s : State)

@[simp] theorem State.sp_advance (n : PcWord) : (s.advance n).sp = s.sp := rfl
@[simp] theorem State.sp_setPc (p : PcWord) : (s.setPc p).sp = s.sp := rfl
@[simp] theorem State.sp_setRam (m : Memory) : (s.setRam m).sp = s.sp := rfl

/-- SP changes with a register write exactly when the register is R7. -/
theorem State.sp_setReg (r : Fin 8) (v : Byte) : (s.setReg r v).sp = if r.val = 7 then v else s.sp := by
  simp only [State.sp, State.reg_setReg, Fin.ext_iff, eq_comm (b := r.val)]
  rfl

/-- Modulo 256, the decrement of SP takes 0x00 to 0xFF (R62). -/
theorem State.sp_decSp_toNat : s.decSp.sp.toNat = (s.sp.toNat + 255) % 256 := by
  rw [State.sp_decSp, BitVec.toNat_sub, Nat.add_comm]
  rfl

/-- Modulo 256, the increment of SP takes 0xFF to 0x00 (R62). -/
theorem State.sp_incSp_toNat : s.incSp.sp.toNat = (s.sp.toNat + 1) % 256 := by
  rw [State.sp_incSp, BitVec.toNat_add]
  rfl

end Sp

/-! ## The state each stack instruction reaches -/

/-- PUSH: the register is read after the decrement and stored at the decremented SP (R63, log 11). -/
theorem exec_push {op1 : Byte} (h : op1.toNat < 8) (s : State) :
    exec (.push op1) s =
      .next ((s.decSp.setRam (Memory.write s.ram s.decSp.stackAddr (s.decSp.reg ⟨op1.toNat, h⟩))).advance 2) := by
  simp only [exec, execPush, regIndex_of_lt h, except_bind_ok, memWrite_stack, trunc8_byte, conclude_ok, State.decSp_ram]

/-- POP: the increment sees the popped byte when the register is R7 (R64, decision D10, log 11). -/
theorem exec_pop {op1 : Byte} (h : op1.toNat < 8) (s : State) :
    exec (.pop op1) s = .next ((s.setReg ⟨op1.toNat, h⟩ (s.byteAt s.stackAddr)).incSp.advance 2) := by
  simp only [exec, execPop, regIndex_of_lt h, except_bind_ok, memRead_stack, conclude_ok]

/-- CALL: the return address modulo 256 is stored at the decremented SP, and the target is read after the decrement
(R66, decision D10, log 11). -/
theorem exec_call {op1 : Byte} (h : op1.toNat < 8) (s : State) :
    exec (.call op1) s =
      .next ((s.decSp.setRam (Memory.write s.ram s.decSp.stackAddr (trunc8 ((s.pc.toNat + 2) % 256)))).setPc
        (s.decSp.target ⟨op1.toNat, h⟩)) := by
  simp only [exec, execCall, regIndex_of_lt h, except_bind_ok, memWrite_stack, conclude_ok, State.decSp_ram, State.decSp_pc,
    State.target, State.reg_setRam]

/-- RET (R67). -/
theorem exec_ret (s : State) : exec .ret s = .next (s.setPc (zext9 (s.byteAt s.stackAddr))).incSp := by
  simp only [exec, execRet, except_bind_ok, memRead_stack, conclude_ok]

/-! ## What they do to SP and STATUS -/

/-- PUSH decrements SP modulo 256, whatever its register. -/
theorem exec_push_sp {op1 : Byte} (h : op1.toNat < 8) (s : State) :
    ∃ t, exec (.push op1) s = .next t ∧ t.sp.toNat = (s.sp.toNat + 255) % 256 ∧ t.status = s.status :=
  ⟨_, exec_push h s, s.sp_decSp_toNat, rfl⟩

/-- CALL decrements SP modulo 256, whatever its register. -/
theorem exec_call_sp {op1 : Byte} (h : op1.toNat < 8) (s : State) :
    ∃ t, exec (.call op1) s = .next t ∧ t.sp.toNat = (s.sp.toNat + 255) % 256 ∧ t.status = s.status :=
  ⟨_, exec_call h s, s.sp_decSp_toNat, rfl⟩

/-- POP increments what SP holds after the register write: the popped byte when the register is R7, the old SP otherwise. -/
theorem exec_pop_sp {op1 : Byte} (h : op1.toNat < 8) (s : State) :
    ∃ t, exec (.pop op1) s = .next t ∧ t.status = s.status ∧
      t.sp.toNat = ((if op1.toNat = 7 then (s.byteAt s.sp.toNat).toNat else s.sp.toNat) + 1) % 256 := by
  refine ⟨_, exec_pop h s, rfl, ?_⟩
  rw [State.sp_advance, State.sp_incSp_toNat, State.sp_setReg, apply_ite BitVec.toNat]
  rfl

/-- RET increments SP modulo 256. -/
theorem exec_ret_sp (s : State) :
    ∃ t, exec .ret s = .next t ∧ t.sp.toNat = (s.sp.toNat + 1) % 256 ∧ t.status = s.status :=
  ⟨_, exec_ret s, State.sp_incSp_toNat _, rfl⟩

/-- Settles O23: both stack accesses succeed because the 8-bit SP always names a cell, and each instruction's SP is one decrement or
increment modulo 256. -/
theorem stackPointerWraps : Obligations.StackPointerWraps :=
  ⟨fun s v => ⟨memRead_stack s, _, memWrite_stack s.decSp v⟩, fun _ s h => exec_push_sp h s, fun _ s h => exec_call_sp h s,
    fun _ s h => exec_pop_sp h s, exec_ret_sp⟩

end Sys2Proof.Machine
end

section
/-!
PROOFS. The flags register (`spec/10_state.md` R16, R17): what CMP reaches, every other instruction carries FL along unread but for
bit 0 in JEQ and JNE, and O20.
-/

namespace Sys2Proof.Machine

/-! ## CMP -/

/-- CMP of two valid registers (R59, decision D3). -/
theorem exec_cmp {op1 op2 : Byte} (h1 : op1.toNat < 8) (h2 : op2.toNat < 8) (s : State) :
    exec (.cmp op1 op2) s =
      .next ((s.setFl (compareBit (s.reg ⟨op1.toNat, h1⟩) (s.reg ⟨op2.toNat, h2⟩))).advance 3) := by
  simp only [exec, execCmp, regIndex_of_lt h1, regIndex_of_lt h2, except_bind_ok, conclude_ok, compareFlags_eq]

theorem eq_cmp_of_mnemonic {i : Instr} (h : i.mnemonic = .cmp) : ∃ op1 op2, i = .cmp op1 op2 := by
  cases i with
  | cmp op1 op2 => exact ⟨op1, op2, rfl⟩
  | _ => cases h

theorem cmp_wellFormed_iff {op1 op2 : Byte} : (Instr.cmp op1 op2).WellFormed ↔ op1.toNat < 8 ∧ op2.toNat < 8 := by
  simp [Laws.RegisterOperands.wellFormed_iff, Instr.registerOperands]

/-- CMP with an operand byte in [8,255] takes a fault that its operand bytes alone determine (R12, R52). -/
theorem exec_cmp_of_not_wellFormed {op1 op2 : Byte} (h : ¬ (Instr.cmp op1 op2).WellFormed) :
    ∃ f, ∀ s, exec (.cmp op1 op2) s = .next (s.takeFault f) := by
  rw [cmp_wellFormed_iff] at h
  simp only [exec, execCmp]
  rcases regIndex_cases op1 with ⟨h1, e1⟩ | ⟨-, e1⟩
  · have h2 : 7 < op2.toNat := by omega
    exact ⟨_, fun s => by rw [e1, regIndex_of_ge h2]; rfl⟩
  · exact ⟨_, fun s => by rw [e1]; rfl⟩

/-- With another FL, CMP ends in the same state when it completes; when it faults, FL keeps the other value. -/
theorem exec_cmp_setFl {op1 op2 : Byte} {s t : State} (v : Byte) (h : exec (.cmp op1 op2) s = .next t) :
    exec (.cmp op1 op2) (s.setFl v) = .next (t.setFl (if (Instr.cmp op1 op2).WellFormed then t.fl else v)) := by
  by_cases hwf : (Instr.cmp op1 op2).WellFormed
  · obtain ⟨h1, h2⟩ := cmp_wellFormed_iff.mp hwf
    rw [exec_cmp h1 h2] at h
    cases h
    rw [if_pos hwf, exec_cmp h1 h2]
    rfl
  · obtain ⟨f, hf⟩ := exec_cmp_of_not_wellFormed hwf
    rw [hf] at h
    cases h
    rw [if_neg hwf, hf]
    rfl

/-! ## The other instructions commute with a write of FL -/

/-- A computation that commutes with a write of FL ends in an instruction that does; a fault commutes because it keeps FL (R77). -/
theorem conclude_setFl {s t : State} {v : Byte} {r r' : Except CoreFault State} (hr : r' = r.map (·.setFl v))
    (h : conclude s r = .next t) : conclude (s.setFl v) r' = .next (t.setFl v) := by
  subst hr
  obtain rfl | ⟨f, rfl, rfl⟩ := conclude_next h <;> rfl

/-- An access whose result does not depend on FL, followed by a computation that commutes with a write of FL. -/
theorem bind_setFl {α : Type} {v : Byte} (x : Except CoreFault α) {k k' : α → Except CoreFault State}
    (hk : ∀ a, k' a = (k a).map (·.setFl v)) : (x >>= k') = (x >>= k).map (·.setFl v) := by
  cases x with
  | ok a => exact hk a
  | error f => rfl

/-- The jump itself does not read FL: the condition is an argument. -/
theorem jumpIf_setFl (taken : Bool) (op1 : Byte) (s : State) (v : Byte) :
    jumpIf taken op1 (s.setFl v) = (jumpIf taken op1 s).map (·.setFl v) := by
  cases taken with
  | true => exact bind_setFl (regIndex op1) fun _ => rfl
  | false => rfl

/-- Every instruction but CMP commutes with a write of FL, which keeps bit 0 where the instruction is JEQ or JNE (R17). -/
theorem exec_setFl {i : Instr} {s t : State} {v : Byte} (h : exec i s = .next t) (hcmp : i.mnemonic ≠ .cmp)
    (hE : i.mnemonic = .jeq ∨ i.mnemonic = .jne → flagE v = flagE s.fl) :
    exec i (s.setFl v) = .next (t.setFl v) := by
  cases i with
  | cmp op1 op2 => exact absurd rfl hcmp
  | hlt => cases h; rfl
  | ret => exact conclude_setFl (bind_setFl (memRead s s.stackAddr) fun _ => rfl) h
  | ldi op1 op2 | prn op1 | jmp op1 => exact conclude_setFl (bind_setFl (regIndex op1) fun _ => rfl) h
  | add op1 op2 | mul op1 op2 =>
    exact conclude_setFl (bind_setFl (regIndex op1) fun _ => bind_setFl (regIndex op2) fun _ => rfl) h
  | pop op1 =>
    exact conclude_setFl (bind_setFl (regIndex op1) fun _ => bind_setFl (memRead s s.stackAddr) fun _ => rfl) h
  | push op1 | call op1 =>
    refine conclude_setFl (bind_setFl (regIndex op1) fun r => ?_) h
    simp only [memWrite_stack, except_bind_ok]
    rfl
  | jeq op1 => exact conclude_setFl (by rw [State.setFl_fl, hE (.inl rfl), jumpIf_setFl]) h
  | jne op1 => exact conclude_setFl (by rw [State.setFl_fl, hE (.inr rfl), jumpIf_setFl]) h

/-- No instruction but CMP changes FL: writing back the FL it began with changes nothing in the start, so nothing in the end. -/
theorem exec_fl {i : Instr} {s t : State} (h : exec i s = .next t) (hcmp : i.mnemonic ≠ .cmp) : t.fl = s.fl := by
  have h' : exec i s = .next (t.setFl s.fl) := exec_setFl h hcmp fun _ => rfl
  rw [h] at h'
  injection h' with e
  rw [e, State.setFl_fl]

/-- Settles O20: every instruction but CMP commutes with a write of FL, and CMP overwrites it or takes a fault that does not
depend on it. -/
theorem onlyCmpWritesAndJumpsReadFlags : Obligations.OnlyCmpWritesAndJumpsReadFlags := by
  refine ⟨fun _ _ _ h hcmp => exec_fl h hcmp, fun i s t v h hE => ?_⟩
  by_cases hcmp : i.mnemonic = .cmp
  · obtain ⟨op1, op2, rfl⟩ := eq_cmp_of_mnemonic hcmp
    simp only [hcmp, true_and]
    exact exec_cmp_setFl v h
  · rw [if_neg fun ⟨e, _⟩ => hcmp e]
    exact exec_setFl h hcmp hE

end Sys2Proof.Machine
end

section
/-!
PROOFS. Memory access (`spec/20_memory.md` R25): the read contract, O37.
-/

namespace Sys2Proof.Machine

/-- Settles O37: the two cases of R25 are the two laws of `memRead`, which meet at 255 and 256 without overlap. -/
theorem memReadContract : Obligations.MemReadContract :=
  fun s _ => ⟨memRead_of_le s, memRead_of_gt s⟩

end Sys2Proof.Machine
end

section
/-!
PROOFS. What each instruction's own statement shares with the others' (`spec/30_encoding.md` R40 to R46, `spec/10_state.md` R12,
`spec/60_exceptions.md` R77, R78): its bytes decode to it, its first register operand faults from 8 on, and it faults where it
does not fit below 256.
-/

namespace Sys2Proof.Machine

open Sys2Proof.Claims

/-- The opcode selects the instruction's own mnemonic, whose operand count takes exactly the instruction's operand bytes (R40,
R41). -/
theorem decodeWith_encodeWith {om : OpcodeMap} (hom : om.Injective) (i : Instr) (rest : List Byte) :
    decodeWith om (encodeWith om i ++ rest) = .ok (i, rest) := by
  simp only [encodeWith, List.cons_append, decodeWith, lookupOpcode_self hom]
  cases i <;> rfl

theorem decode_encode (i : Instr) (rest : List Byte) : decode (encode i ++ rest) = .ok (i, rest) :=
  decodeWith_encodeWith opcodeMap_injective i rest

/-- An instruction that begins with an access to an index in [8,255] takes `InvalidRegister`, whatever it would do next (R12,
R77). -/
theorem conclude_regIndex_of_ge {op : Byte} (h : 7 < op.toNat) (s : State) (k : Fin 8 → Except CoreFault State) :
    conclude s (regIndex op >>= k) = .next (faulted s .invalidRegister (op.setWidth 9)) := by
  rw [regIndex_of_ge h]
  rfl

/-- The opcode byte is in memory and known, so a fetch that does not fit below 256 meets the missing operand byte (R46, R78). -/
theorem fetchFaults (m : Mnemonic) : FetchFaults (opcodeMap m) (operandCount m) := by
  rintro s ⟨hr, hpc, htop, hbyte⟩
  have hlookup : lookupOpcode opcodeMap (s.byteAt s.pc.toNat) = some m :=
    hbyte ▸ lookupOpcode_self opcodeMap_injective m
  have hfetch : fetch opcodeMap s = .error (.outOfRange 256) := by
    rcases fetch_cases opcodeMap s with ⟨hpc', -⟩ | ⟨-, hnone, -⟩ | ⟨m', -, hsome, ⟨-, herror⟩ | ⟨hfits, -⟩⟩
    · omega
    · cases hlookup.symm.trans hnone
    · exact herror
    · cases hlookup.symm.trans hsome
      omega
  exact step_of_fetch_error hr hfetch

end Sys2Proof.Machine
end

section
/-!
PROOFS. LDI and PRN (`spec/40_step_hlt_ldi_prn.md` R54, R55): the state each reaches, O14 and O15.
-/

namespace Sys2Proof.Machine

/-- LDI of a valid register (R54). -/
theorem exec_ldi {op1 : Byte} (h : op1.toNat < 8) (op2 : Byte) (s : State) :
    exec (.ldi op1 op2) s = .next ((s.setReg ⟨op1.toNat, h⟩ op2).advance 3) := by
  simp only [exec, execLdi, regIndex_of_lt h, except_bind_ok, conclude_ok, immediate]

/-- PRN of a valid register (R55). -/
theorem exec_prn {op1 : Byte} (h : op1.toNat < 8) (s : State) :
    exec (.prn op1) s = .next ((s.emit (s.reg ⟨op1.toNat, h⟩)).advance 2) := by
  simp only [exec, execPrn, regIndex_of_lt h, except_bind_ok, conclude_ok]

/-- PRN after LDI of the same register reads back the immediate byte and prints it (R54). -/
theorem exec_ldi_prn_out {op1 : Byte} (h : op1.toNat < 8) (op2 : Byte) (s : State) :
    ∃ t u, exec (.ldi op1 op2) s = .next t ∧ exec (.prn op1) t = .next u ∧ u.out = s.out ++ [op2] := by
  refine ⟨_, _, exec_ldi h op2 s, exec_prn h _, ?_⟩
  rw [State.advance_out, State.emit_out, State.reg_advance, State.reg_setReg_self, State.advance_out, State.setReg_out]

/-- Settles O14: a valid register gives the state of `exec_ldi`, an invalid one the fault of the first access, and `fetchFaults`
covers 254 and 255. -/
theorem ldiLoadsTheImmediate : Obligations.LdiLoadsTheImmediate :=
  ⟨fun op1 op2 rest => decode_encode (.ldi op1 op2) rest, fun _ op2 s h => exec_ldi h op2 s,
    fun _ _ s h => conclude_regIndex_of_ge h s _, fetchFaults .ldi, fun _ op2 s h => exec_ldi_prn_out h op2 s⟩

/-- Settles O15: a valid register gives the state of `exec_prn`, an invalid one the fault of the first access, and `fetchFaults`
covers 255. -/
theorem prnEmitsTheRegister : Obligations.PrnEmitsTheRegister :=
  ⟨fun op1 rest => decode_encode (.prn op1) rest, fun _ s h => exec_prn h s,
    fun _ s h => conclude_regIndex_of_ge h s _, fetchFaults .prn⟩

end Sys2Proof.Machine
end

section
/-!
PROOFS. ADD and MUL (`spec/41_alu_add_mul_cmp.md` R56 to R58): the state each reaches, the fault of the second operand, O16 and O17.
-/

namespace Sys2Proof.Machine

open Sys2Proof.Claims

/-- The low 8 bits of a number are those of its remainder modulo 256 (R6). -/
theorem trunc8_mod (v : Nat) : trunc8 (v % 256) = trunc8 v := BitVec.eq_of_toNat_eq (by simp only [trunc8_toNat, Nat.mod_mod])

/-- ADD of two valid registers, which may be the same (R57). -/
theorem exec_add {op1 op2 : Byte} (h1 : op1.toNat < 8) (h2 : op2.toNat < 8) (s : State) :
    exec (.add op1 op2) s =
      .next ((s.setReg ⟨op1.toNat, h1⟩ (aluAdd (s.reg ⟨op1.toNat, h1⟩) (s.reg ⟨op2.toNat, h2⟩))).advance 3) := by
  simp only [exec, execAdd, regIndex_of_lt h1, regIndex_of_lt h2, except_bind_ok, conclude_ok]

/-- MUL of two valid registers, which may be the same (R58). -/
theorem exec_mul {op1 op2 : Byte} (h1 : op1.toNat < 8) (h2 : op2.toNat < 8) (s : State) :
    exec (.mul op1 op2) s =
      .next ((s.setReg ⟨op1.toNat, h1⟩ (aluMul (s.reg ⟨op1.toNat, h1⟩) (s.reg ⟨op2.toNat, h2⟩))).advance 3) := by
  simp only [exec, execMul, regIndex_of_lt h1, regIndex_of_lt h2, except_bind_ok, conclude_ok]

/-- An instruction that accesses a valid index and then one in [8,255] takes `InvalidRegister` of the second (R52, R78). -/
theorem conclude_regIndex_of_second_ge {op1 op2 : Byte} (h1 : op1.toNat < 8) (h2 : 7 < op2.toNat) (s : State)
    (k : Fin 8 → Fin 8 → Except CoreFault State) :
    conclude s (regIndex op1 >>= fun a => regIndex op2 >>= k a) =
      .next (faulted s .invalidRegister (op2.setWidth 9)) := by
  rw [regIndex_of_lt h1, except_bind_ok]
  exact conclude_regIndex_of_ge h2 s _

/-- Settles O16: two valid registers give the state of `exec_add`, whose truncated sum is the sum modulo 256; otherwise the first
access that is invalid faults, and `fetchFaults` covers 254 and 255. -/
theorem addWritesTheSumModulo256 : Obligations.AddWritesTheSumModulo256 := by
  refine ⟨fun op1 op2 rest => decode_encode (.add op1 op2) rest, fun op1 op2 s h1 h2 => ?_,
    fun _ _ s h => conclude_regIndex_of_ge h s _, fun _ _ s h1 h2 => conclude_regIndex_of_second_ge h1 h2 s _,
    fetchFaults .add⟩
  rw [exec_add h1 h2, aluAdd, ← trunc8_mod]
  rfl

/-- Settles O17: two valid registers give the state of `exec_mul`, whose truncated product is the product modulo 256; otherwise
the first access that is invalid faults, and `fetchFaults` covers 254 and 255. -/
theorem mulWritesTheProductModulo256 : Obligations.MulWritesTheProductModulo256 := by
  refine ⟨fun op1 op2 rest => decode_encode (.mul op1 op2) rest, fun op1 op2 s h1 h2 => ?_,
    fun _ _ s h => conclude_regIndex_of_ge h s _, fun _ _ s h1 h2 => conclude_regIndex_of_second_ge h1 h2 s _,
    fetchFaults .mul⟩
  rw [exec_mul h1 h2, aluMul, ← trunc8_mod]
  rfl

end Sys2Proof.Machine
end

section
/-!
PROOFS. PUSH and POP (`spec/42_stack_push_pop.md` R62 to R64): register writes that overwrite, write back or commute, the decrement
of SP undone by the increment, the stack top after PUSH, the registers after PUSH then POP, O21 and O22.
-/

namespace Sys2Proof.Machine

open Sys2Proof.Claims

/-! ## Register writes that meet (R12, R13) -/

section Writes

variable (s : State)

@[simp] theorem State.setReg_setReg (r : Fin 8) (v w : Byte) : (s.setReg r v).setReg r w = s.setReg r w := by
  simp only [State.setReg, Vector.set_set]

@[simp] theorem State.setReg_reg (r : Fin 8) : s.setReg r (s.reg r) = s := by
  simp only [State.setReg, State.reg_eq, Vector.set_getElem_self]

theorem State.setReg_comm {r q : Fin 8} (h : r ≠ q) (v w : Byte) :
    (s.setReg r v).setReg q w = (s.setReg q w).setReg r v := by
  simp only [State.setReg, Vector.set_comm v w (Fin.val_ne_of_ne h)]

theorem State.sp_setReg_ne {r : Fin 8} (h : r ≠ 7) (v : Byte) : (s.setReg r v).sp = s.sp := s.reg_setReg_ne v h.symm

end Writes

/-! ## SP decremented and incremented around other writes (R62) -/

section Sp

variable (s : State)

/-- What a register holds after the decrement of SP: for R7, the decremented SP (R63). -/
theorem State.reg_decSp (r : Fin 8) : s.decSp.reg r = if r.val = 7 then s.sp - 1 else s.reg r := by
  split
  next h => rw [show r = 7 from Fin.ext h]; exact s.sp_decSp
  next h => exact s.reg_decSp_ne (Fin.ne_of_val_ne h)

/-- The increment of SP undoes the decrement, modulo 256. -/
@[simp] theorem State.incSp_decSp : s.decSp.incSp = s := by
  rw [State.incSp, State.sp_decSp, BitVec.sub_add_cancel, State.decSp, State.setReg_setReg]
  exact s.setReg_reg 7

/-- The increment after a write of R7 sees the value written (R64, decision D10, log 11). -/
theorem State.incSp_setReg_sp (v : Byte) : (s.setReg 7 v).incSp = s.setReg 7 (v + 1) := by
  have hsp : (s.setReg 7 v).sp = v := s.reg_setReg_self 7 v
  rw [State.incSp, hsp, State.setReg_setReg]

/-- A write of another register commutes with the decrement of SP. -/
theorem State.decSp_setReg_ne {r : Fin 8} (h : r ≠ 7) (v : Byte) : (s.setReg r v).decSp = s.decSp.setReg r v := by
  rw [State.decSp, s.sp_setReg_ne h, s.setReg_comm h, State.decSp]

end Sp

/-! ## PUSH -/

/-- One write to a canonical RAM changes the byte at its address and no other. -/
theorem State.byteAt_setRam_write {s : State} (hram : Memory.wf s.ram) (a : Nat) (v : Byte) (b : Nat) :
    (s.setRam (Memory.write s.ram a v)).byteAt b = if b = a then v else s.byteAt b := by
  simp only [State.byteAt_eq, State.setRam_ram, Memory.read_write hram, eq_comm]

/-- PUSH stores the register, read after the decrement of SP, at the decremented SP and nowhere else (R63). -/
theorem exec_push_byteAt {op1 : Byte} (h : op1.toNat < 8) {s : State} (hram : Memory.wf s.ram) :
    ∃ t, exec (.push op1) s = .next t ∧ t = { s with regs := s.decSp.regs, ram := t.ram, pc := s.pc + 2 } ∧
      ∀ a, t.byteAt a = if a = s.decSp.stackAddr then s.decSp.reg ⟨op1.toNat, h⟩ else s.byteAt a :=
  ⟨_, exec_push h s, rfl, State.byteAt_setRam_write (s := s.decSp) hram _ _⟩

/-- Settles O21: a valid register gives the state of `exec_push_byteAt`, an invalid one the fault of the first access, and
`fetchFaults` covers 255. -/
theorem pushStoresBelowTheStackTop : Obligations.PushStoresBelowTheStackTop := by
  refine ⟨fun op1 rest => decode_encode (.push op1) rest, fun op1 s h hram => ?_,
    fun _ s h => conclude_regIndex_of_ge h s _, fetchFaults .push⟩
  obtain ⟨t, hexec, ht, hbyte⟩ := exec_push_byteAt h hram
  rw [State.stackAddr, State.sp_decSp, State.reg_decSp] at hbyte
  exact ⟨t, hexec, ht, hbyte⟩

/-! ## POP, and PUSH then POP -/

/-- POP after PUSH reads the byte PUSH stored, so the registers end as if the pushed one, read after the decrement of SP, were
moved to the popped one before the increment. -/
theorem exec_push_pop_regs {op1 op2 : Byte} (h1 : op1.toNat < 8) (h2 : op2.toNat < 8) {s : State} (hram : Memory.wf s.ram) :
    ∃ t u, exec (.push op1) s = .next t ∧ exec (.pop op2) t = .next u ∧
      u.regs = (s.decSp.setReg ⟨op2.toNat, h2⟩ (s.decSp.reg ⟨op1.toNat, h1⟩)).incSp.regs := by
  obtain ⟨t, hexec, ht, hbyte⟩ := exec_push_byteAt h1 hram
  have hregs : t.regs = s.decSp.regs := congrArg (·.regs) ht
  have haddr : t.stackAddr = s.decSp.stackAddr := by simp only [State.stackAddr, State.sp, State.reg_eq, hregs]
  have htop : t.byteAt t.stackAddr = s.decSp.reg ⟨op1.toNat, h1⟩ := (hbyte _).trans (if_pos haddr)
  refine ⟨t, _, hexec, exec_pop h2 t, ?_⟩
  rw [htop]
  simp only [State.advance_regs, State.incSp_regs, State.sp, State.reg_eq, State.setReg_regs, hregs]

/-- Settles O22: a valid register gives the state of `exec_pop`, an invalid one the fault of the first access, and `fetchFaults`
covers 255; after PUSH, the increment of SP undoes the decrement around the move of the pushed byte. -/
theorem popLoadsTheStackTop : Obligations.PopLoadsTheStackTop := by
  refine ⟨fun op1 rest => decode_encode (.pop op1) rest, fun op1 s h hne => ?_, fun op1 s h7 => ?_,
    fun _ s h => conclude_regIndex_of_ge h s _, fetchFaults .pop, fun op1 s h hram => ?_, fun op1 op2 s h1 h2 hram => ?_⟩
  · rw [exec_pop h, State.incSp, s.sp_setReg_ne (Fin.ne_of_val_ne hne)]
    rfl
  · have h : op1.toNat < 8 := by omega
    have hr : (⟨op1.toNat, h⟩ : Fin 8) = 7 := Fin.ext h7
    rw [exec_pop h, hr, State.incSp_setReg_sp]
    rfl
  · obtain ⟨t, u, hpush, hpop, hregs⟩ := exec_push_pop_regs h h hram
    rw [State.setReg_reg, State.incSp_decSp] at hregs
    exact ⟨t, u, hpush, hpop, hregs⟩
  · obtain ⟨t, u, hpush, hpop, hregs⟩ := exec_push_pop_regs (Nat.lt_succ_of_lt h1) (Nat.lt_succ_of_lt h2) hram
    rw [State.reg_decSp_ne _ (Fin.ne_of_val_ne h1.ne), ← State.decSp_setReg_ne _ (Fin.ne_of_val_ne h2.ne),
      State.incSp_decSp] at hregs
    exact ⟨t, u, hpush, hpop, hregs⟩

end Sys2Proof.Machine
end

section
/-!
PROOFS. CALL then RET, and JMP (`spec/43_control_call_ret_jmp_jeq_jne.md` R65 to R68): the return address that CALL leaves at the
stack top, the state JMP reaches, O25 and O26.
-/

namespace Sys2Proof.Machine

/-- CALL stores the return address modulo 256 at the decremented SP and nowhere else, and reads its target after the decrement
(R66, decision D10, log 11). -/
theorem exec_call_byteAt {op1 : Byte} (h : op1.toNat < 8) {s : State} (hram : Memory.wf s.ram) :
    ∃ t, exec (.call op1) s = .next t ∧
      t = { s with regs := s.decSp.regs, ram := t.ram, pc := s.decSp.target ⟨op1.toNat, h⟩ } ∧
      ∀ a, t.byteAt a = if a = s.decSp.stackAddr then trunc8 ((s.pc.toNat + 2) % 256) else s.byteAt a :=
  ⟨_, exec_call h s, rfl, State.byteAt_setRam_write (s := s.decSp) hram _ _⟩

/-- After CALL, SP is decremented and the byte it names is the return address modulo 256 (R66). -/
theorem exec_call_stackTop {op1 : Byte} (h : op1.toNat < 8) {s t : State} (hram : Memory.wf s.ram)
    (hcall : exec (.call op1) s = .next t) :
    t.sp = s.sp - 1 ∧ t.byteAt t.stackAddr = trunc8 ((s.pc.toNat + 2) % 256) := by
  obtain ⟨t', hexec, ht, hbyte⟩ := exec_call_byteAt h hram
  cases hcall.symm.trans hexec
  have hsp : t.sp = s.decSp.sp := by rw [ht]; rfl
  exact ⟨hsp.trans s.sp_decSp, (hbyte _).trans (if_pos (congrArg BitVec.toNat hsp))⟩

/-- Settles O25: RET is `exec_ret`; after CALL it pops the byte of `exec_call_stackTop`, and its increment of SP undoes CALL's
decrement. -/
theorem retPopsThePc : Obligations.RetPopsThePc := by
  refine ⟨decode_encode .ret, exec_ret, fun op1 s t u h hpc hram hcall hsp htop => ?_⟩
  obtain ⟨hsp', htop'⟩ := exec_call_stackTop h hram hcall
  have hpop : u.byteAt u.stackAddr = trunc8 ((s.pc.toNat + 2) % 256) := by
    rw [State.stackAddr, hsp]
    exact htop.trans htop'
  refine ⟨_, exec_ret u, ?_, ?_⟩
  · rw [State.sp_incSp, State.sp_setPc, hsp, hsp', BitVec.sub_add_cancel]
  · rw [State.incSp_pc, State.setPc_pc, zext9_toNat, hpop, trunc8_toNat]
    split <;> omega

/-- JMP of a valid register (R68). -/
theorem exec_jmp {op1 : Byte} (h : op1.toNat < 8) (s : State) :
    exec (.jmp op1) s = .next (s.setPc (s.target ⟨op1.toNat, h⟩)) := by
  simp only [exec, execJmp, regIndex_of_lt h, except_bind_ok, conclude_ok]

/-- Settles O26: a valid register gives the state of `exec_jmp`, an invalid one the fault of the first access, and `fetchFaults`
covers 255. -/
theorem jmpSetsThePc : Obligations.JmpSetsThePc :=
  ⟨fun op1 rest => decode_encode (.jmp op1) rest, fun _ s h => exec_jmp h s,
    fun _ s h => conclude_regIndex_of_ge h s _, fetchFaults .jmp⟩

end Sys2Proof.Machine
end

section
/-!
PROOFS. The first step after reset (`spec/70_reset_and_hazards.md` R83, R84): the cells an image loads, the decoder and the fetch where
three bytes fit below 256, and O47.
-/

namespace Sys2Proof.Machine

/-- `Reset(IMAGE)` loads each of the 256 cells with the image's byte (R83). -/
theorem State.byteAt_resetImage (image : Image) {a : Nat} (h : a < 256) : (State.resetImage image).byteAt a = image[a] := by
  have hread := Memory.read_ofBytes 0 image.toList (by simp) a
  rw [if_pos a.zero_le, Nat.sub_zero, List.getD_eq_getElem _ _ (by simpa using h), Vector.getElem_toList] at hread
  exact hread

/-- Where the longest instruction fits below 256, the code bytes are the three bytes from PC on (R40). -/
theorem State.codeBytes_of_le {s : State} (h : s.pc.toNat ≤ 253) :
    s.codeBytes = [s.byteAt s.pc.toNat, s.byteAt (s.pc.toNat + 1), s.byteAt (s.pc.toNat + 2)] := by
  have h0 : s.pc.toNat ≤ 255 := by omega
  have h1 : s.pc.toNat + 1 ≤ 255 := by omega
  have h2 : s.pc.toNat + 2 ≤ 255 := by omega
  simp [State.codeBytes, List.range_succ, h0, h1, h2]

/-- Three bytes decode only to what the first one's mnemonic makes of the other two; the formats with fewer operands ignore the
rest (R40, R41). -/
theorem eq_assemble_of_decodeWith {om : OpcodeMap} {opc op1 op2 : Byte} {i : Instr} {rest : List Byte}
    (h : decodeWith om [opc, op1, op2] = .ok (i, rest)) :
    ∃ m, lookupOpcode om opc = some m ∧ i = assemble m op1 op2 := by
  cases hm : lookupOpcode om opc with
  | none => simp only [decodeWith, hm, reduceCtorEq] at h
  | some m =>
    simp only [decodeWith, hm] at h
    refine ⟨m, rfl, ?_⟩
    cases m <;> cases h <;> rfl

/-- Where three bytes fit below 256, the fetch answers what the decoder makes of them: no operand byte is missing and the opcode is
known (R46, R50). -/
theorem fetch_of_decodeWith {om : OpcodeMap} {s : State} {i : Instr} {rest : List Byte} (hpc : s.pc.toNat ≤ 253)
    (h : decodeWith om s.codeBytes = .ok (i, rest)) : fetch om s = .ok i := by
  rw [State.codeBytes_of_le hpc] at h
  obtain ⟨m, hm, rfl⟩ := eq_assemble_of_decodeWith h
  have hcount : operandCount m ≤ 2 := by cases m <;> decide
  rcases fetch_cases om s with ⟨htop, -⟩ | ⟨-, hnone, -⟩ | ⟨m', -, hsome, ⟨hmissing, -⟩ | ⟨-, hok⟩⟩
  · omega
  · cases hm.symm.trans hnone
  · cases hm.symm.trans hsome
    omega
  · cases hm.symm.trans hsome
    exact hok

/-- The bytes at PC after `Reset(IMAGE)` are the image's first three (R84). -/
theorem State.codeBytes_resetImage (image : Image) :
    (State.resetImage image).codeBytes = [image[0], image[1], image[2]] := by
  have hpc : (State.resetImage image).pc.toNat = 0 := rfl
  rw [State.codeBytes_of_le (hpc.trans_le (Nat.zero_le _)), hpc, State.byteAt_resetImage image (by decide),
    State.byteAt_resetImage image (by decide), State.byteAt_resetImage image (by decide)]

/-- Settles O47: the reset state is RUNNING with PC 0, so its step fetches the image's first three bytes. -/
theorem firstStepFetchesAddressZero : Obligations.FirstStepFetchesAddressZero := by
  refine fun image => ⟨rfl, State.codeBytes_resetImage image, fun i rest hdecode => ?_⟩
  rw [← State.codeBytes_resetImage image] at hdecode
  exact step_of_fetch_ok rfl (fetch_of_decodeWith (Nat.zero_le 253) hdecode)

end Sys2Proof.Machine
end

section
/-!
PROOFS. The decoder and the encoder (`spec/30_encoding.md` R40 to R45): each direction of their round trip, O1, O2 and O3.
-/

namespace Sys2Proof.Machine

/-- Settles O2: the opcode byte selects the instruction's own mnemonic, and its operand count takes the operand bytes. -/
theorem decodeInvertsEncodeForEveryMap : Obligations.DecodeInvertsEncodeForEveryMap :=
  fun _ hom i rest => decodeWith_encodeWith hom i rest

/-- A mnemonic's operand bytes in front of any others, with 0 for each byte its format lacks (R40). -/
theorem encodeWith_assemble (om : OpcodeMap) (m : Mnemonic) (op1 op2 : Byte) :
    encodeWith om (assemble m op1 op2) = om m :: [op1, op2].take (operandCount m) := by
  cases m <;> rfl

/-- Settles O3: a decoded opcode byte is its mnemonic's, and the operand bytes taken are as many as the format has. -/
theorem decodedBytesAreTheEncoding : Obligations.DecodedBytesAreTheEncoding := by
  intro om bytes i rest h
  cases bytes with
  | nil => cases h
  | cons opc tail =>
    cases hm : lookupOpcode om opc with
    | none => simp only [decodeWith, hm, reduceCtorEq] at h
    | some m =>
      rw [← lookupOpcode_some hm]
      simp only [decodeWith, hm] at h
      split at h <;> cases h <;> simp [encodeWith_assemble, *]

/-- Settles O1: each of the 13 byte strings is the encoding of its instruction. -/
theorem opcodeBytesDecodeToTheirInstructions : Obligations.OpcodeBytesDecodeToTheirInstructions := fun a b rest =>
  ⟨decode_encode .hlt rest, decode_encode (.ldi a b) rest, decode_encode (.prn a) rest, decode_encode (.add a b) rest,
    decode_encode (.mul a b) rest, decode_encode (.cmp a b) rest, decode_encode (.push a) rest, decode_encode (.pop a) rest,
    decode_encode (.call a) rest, decode_encode .ret rest, decode_encode (.jmp a) rest, decode_encode (.jeq a) rest,
    decode_encode (.jne a) rest⟩

end Sys2Proof.Machine
end

section
/-!
PROOFS. Everything an instruction can do, as a relation (`spec/40_step_hlt_ldi_prn.md` R50 to R53, `spec/60_exceptions.md` R77, R78):
the state it reaches when it completes, or the first register operand it accesses in vain; `exec_next` ties both to `exec`. Every
instruction, step and run answers a next state (O12); HLT (O13).
-/

namespace Sys2Proof

/-- The first register operand, in encoding order, that names no register (R52, R78). -/
def Instr.firstInvalid (i : Instr) : Option Byte := i.registerOperands.find? fun op => !regOperandOk op

/-- Whether an instruction accesses its register operands, by FL: every one does but a jump that is not taken (R52, log 12). -/
def Instr.accesses (i : Instr) (fl : Byte) : Prop :=
  match i with
  | .jeq _ => Machine.flagE fl = true
  | .jne _ => Machine.flagE fl = false
  | _ => True

theorem Instr.firstInvalid_mem {i : Instr} {op : Byte} (h : i.firstInvalid = some op) : op ∈ i.registerOperands :=
  List.mem_of_find?_eq_some h

theorem Instr.firstInvalid_gt {i : Instr} {op : Byte} (h : i.firstInvalid = some op) : 7 < op.toNat := by
  have hop := List.find?_some h
  simp only [regOperandOk, Bool.not_eq_true', decide_eq_false_iff_not] at hop
  omega

/-- A well-formed instruction has no invalid register operand (R43(a)). -/
theorem Instr.firstInvalid_eq_none {i : Instr} : i.firstInvalid = none ↔ i.WellFormed := by
  simp [Instr.firstInvalid, Instr.WellFormed, Instr.wf]

/-- An invalid first register operand is the one found. -/
theorem Instr.firstInvalid_of_head {i : Instr} {op : Byte} {ops : List Byte} (hi : i.registerOperands = op :: ops)
    (h : 7 < op.toNat) : i.firstInvalid = some op := by
  have hop : regOperandOk op = false := decide_eq_false (by omega)
  rw [Instr.firstInvalid, hi, List.find?_cons_of_pos (by rw [hop]; rfl)]

/-- The invalid operand of an instruction with one register operand. -/
theorem Instr.firstInvalid_of_singleton {i : Instr} {a op : Byte} (hi : i.registerOperands = [a])
    (h : i.firstInvalid = some op) : op = a := by
  have hmem := firstInvalid_mem h
  rw [hi] at hmem
  exact List.mem_singleton.mp hmem

/-- The invalid operand of an instruction with two register operands: op1 if it is invalid, else op2. -/
theorem Instr.firstInvalid_of_pair {i : Instr} {a b op : Byte} (hi : i.registerOperands = [a, b])
    (h : i.firstInvalid = some op) : (7 < a.toNat ∧ op = a) ∨ (a.toNat < 8 ∧ 7 < b.toNat ∧ op = b) := by
  have hgt := firstInvalid_gt h
  rw [Instr.firstInvalid, hi] at h
  by_cases ha : a.toNat < 8
  · rw [List.find?_cons_of_neg (by simpa [regOperandOk] using ha)] at h
    have hb : op = b := List.mem_singleton.mp (List.mem_of_find?_eq_some h)
    exact .inr ⟨ha, hb ▸ hgt, hb⟩
  · rw [List.find?_cons_of_pos (by simpa [regOperandOk] using ha)] at h
    exact .inl ⟨by omega, (Option.some.inj h).symm⟩

end Sys2Proof

namespace Sys2Proof.Machine

/-- `Completes s i t`: from `s` the instruction `i` completes and reaches `t` (R53 to R70). -/
inductive Completes (s : State) : Instr → State → Prop
  | hlt : Completes s .hlt ((s.setStatus .halted).advance 1)
  | ldi {op1 op2 : Byte} (h : op1.toNat < 8) : Completes s (.ldi op1 op2) ((s.setReg ⟨op1.toNat, h⟩ op2).advance 3)
  | prn {op1 : Byte} (h : op1.toNat < 8) : Completes s (.prn op1) ((s.emit (s.reg ⟨op1.toNat, h⟩)).advance 2)
  | add {op1 op2 : Byte} (h1 : op1.toNat < 8) (h2 : op2.toNat < 8) : Completes s (.add op1 op2)
      ((s.setReg ⟨op1.toNat, h1⟩ (aluAdd (s.reg ⟨op1.toNat, h1⟩) (s.reg ⟨op2.toNat, h2⟩))).advance 3)
  | mul {op1 op2 : Byte} (h1 : op1.toNat < 8) (h2 : op2.toNat < 8) : Completes s (.mul op1 op2)
      ((s.setReg ⟨op1.toNat, h1⟩ (aluMul (s.reg ⟨op1.toNat, h1⟩) (s.reg ⟨op2.toNat, h2⟩))).advance 3)
  | cmp {op1 op2 : Byte} (h1 : op1.toNat < 8) (h2 : op2.toNat < 8) : Completes s (.cmp op1 op2)
      ((s.setFl (compareBit (s.reg ⟨op1.toNat, h1⟩) (s.reg ⟨op2.toNat, h2⟩))).advance 3)
  | push {op1 : Byte} (h : op1.toNat < 8) : Completes s (.push op1)
      ((s.decSp.setRam (Memory.write s.ram s.decSp.stackAddr (s.decSp.reg ⟨op1.toNat, h⟩))).advance 2)
  | pop {op1 : Byte} (h : op1.toNat < 8) : Completes s (.pop op1)
      ((s.setReg ⟨op1.toNat, h⟩ (s.byteAt s.stackAddr)).incSp.advance 2)
  | call {op1 : Byte} (h : op1.toNat < 8) : Completes s (.call op1)
      ((s.decSp.setRam (Memory.write s.ram s.decSp.stackAddr (trunc8 ((s.pc.toNat + 2) % 256)))).setPc
        (s.decSp.target ⟨op1.toNat, h⟩))
  | ret : Completes s .ret (s.setPc (zext9 (s.byteAt s.stackAddr))).incSp
  | jmp {op1 : Byte} (h : op1.toNat < 8) : Completes s (.jmp op1) (s.setPc (s.target ⟨op1.toNat, h⟩))
  | jeqTaken {op1 : Byte} (h : op1.toNat < 8) (hE : flagE s.fl = true) :
      Completes s (.jeq op1) (s.setPc (s.target ⟨op1.toNat, h⟩))
  | jeqNotTaken {op1 : Byte} (hE : flagE s.fl = false) : Completes s (.jeq op1) (s.advance 2)
  | jneTaken {op1 : Byte} (h : op1.toNat < 8) (hE : flagE s.fl = false) :
      Completes s (.jne op1) (s.setPc (s.target ⟨op1.toNat, h⟩))
  | jneNotTaken {op1 : Byte} (hE : flagE s.fl = true) : Completes s (.jne op1) (s.advance 2)

/-! ## The conditional jumps -/

theorem jumpIf_taken {op1 : Byte} (h : op1.toNat < 8) (s : State) :
    jumpIf true op1 s = .ok (s.setPc (s.target ⟨op1.toNat, h⟩)) := by
  simp only [jumpIf, regIndex_of_lt h, except_bind_ok, if_true]

/-- JEQ with `E` set jumps (R69). -/
theorem exec_jeq_of_flagE {op1 : Byte} (h : op1.toNat < 8) {s : State} (hE : flagE s.fl = true) :
    exec (.jeq op1) s = .next (s.setPc (s.target ⟨op1.toNat, h⟩)) := by
  simp only [exec, execJeq, hE, jumpIf_taken h, conclude_ok]

/-- JEQ with `E` clear does not look at its operand (R69, log 12). -/
theorem exec_jeq_of_not_flagE {op1 : Byte} {s : State} (hE : flagE s.fl = false) :
    exec (.jeq op1) s = .next (s.advance 2) := by
  simp only [exec, execJeq, hE]
  rfl

/-- JNE with `E` clear jumps (R70). -/
theorem exec_jne_of_not_flagE {op1 : Byte} (h : op1.toNat < 8) {s : State} (hE : flagE s.fl = false) :
    exec (.jne op1) s = .next (s.setPc (s.target ⟨op1.toNat, h⟩)) := by
  simp only [exec, execJne, hE, Bool.not_false, jumpIf_taken h, conclude_ok]

/-- JNE with `E` set does not look at its operand (R70, log 12). -/
theorem exec_jne_of_flagE {op1 : Byte} {s : State} (hE : flagE s.fl = true) :
    exec (.jne op1) s = .next (s.advance 2) := by
  simp only [exec, execJne, hE]
  rfl

/-- A taken jump to an index in [8,255] takes `InvalidRegister` (R12, R77). -/
theorem conclude_jumpIf_of_ge {op1 : Byte} (h : 7 < op1.toNat) (s : State) :
    conclude s (jumpIf true op1 s) = .next (s.takeFault (.invalidRegister op1)) :=
  conclude_regIndex_of_ge h s _

/-! ## The relation and `exec` -/

theorem exec_of_completes {i : Instr} {s t : State} (h : Completes s i t) : exec i s = .next t := by
  cases h with
  | hlt => rfl
  | ldi h => exact exec_ldi h _ s
  | prn h => exact exec_prn h s
  | add h1 h2 => exact exec_add h1 h2 s
  | mul h1 h2 => exact exec_mul h1 h2 s
  | cmp h1 h2 => exact exec_cmp h1 h2 s
  | push h => exact exec_push h s
  | pop h => exact exec_pop h s
  | call h => exact exec_call h s
  | ret => exact exec_ret s
  | jmp h => exact exec_jmp h s
  | jeqTaken h hE => exact exec_jeq_of_flagE h hE
  | jeqNotTaken hE => exact exec_jeq_of_not_flagE hE
  | jneTaken h hE => exact exec_jne_of_not_flagE h hE
  | jneNotTaken hE => exact exec_jne_of_flagE hE

/-- An instruction that accesses its register operands takes `InvalidRegister` of the first that is none (R12, R52, R78). -/
theorem exec_of_firstInvalid {i : Instr} {s : State} {op : Byte} (hacc : i.accesses s.fl) (h : i.firstInvalid = some op) :
    exec i s = .next (s.takeFault (.invalidRegister op)) := by
  have hgt := Instr.firstInvalid_gt h
  cases i with
  | hlt | ret => cases h
  | ldi | prn | jmp | push | pop | call =>
    cases Instr.firstInvalid_of_singleton rfl h
    exact conclude_regIndex_of_ge hgt s _
  | jeq op1 =>
    cases Instr.firstInvalid_of_singleton rfl h
    rw [exec, execJeq, show flagE s.fl = true from hacc]
    exact conclude_jumpIf_of_ge hgt s
  | jne op1 =>
    cases Instr.firstInvalid_of_singleton rfl h
    rw [exec, execJne, show flagE s.fl = false from hacc]
    exact conclude_jumpIf_of_ge hgt s
  | add | mul | cmp =>
    obtain ⟨h1, rfl⟩ | ⟨h1, h2, rfl⟩ := Instr.firstInvalid_of_pair rfl h
    · exact conclude_regIndex_of_ge h1 s _
    · exact conclude_regIndex_of_second_ge h1 h2 s _

/-- With every register operand valid an instruction completes. -/
theorem completes_of_wellFormed {i : Instr} (hwf : i.WellFormed) (s : State) : ∃ t, Completes s i t := by
  rw [Laws.RegisterOperands.wellFormed_iff] at hwf
  cases i with
  | hlt => exact ⟨_, .hlt⟩
  | ldi => exact ⟨_, .ldi (hwf _ List.mem_cons_self)⟩
  | prn => exact ⟨_, .prn (hwf _ List.mem_cons_self)⟩
  | add => exact ⟨_, .add (hwf _ List.mem_cons_self) (hwf _ (List.mem_cons_of_mem _ List.mem_cons_self))⟩
  | mul => exact ⟨_, .mul (hwf _ List.mem_cons_self) (hwf _ (List.mem_cons_of_mem _ List.mem_cons_self))⟩
  | cmp => exact ⟨_, .cmp (hwf _ List.mem_cons_self) (hwf _ (List.mem_cons_of_mem _ List.mem_cons_self))⟩
  | push => exact ⟨_, .push (hwf _ List.mem_cons_self)⟩
  | pop => exact ⟨_, .pop (hwf _ List.mem_cons_self)⟩
  | call => exact ⟨_, .call (hwf _ List.mem_cons_self)⟩
  | ret => exact ⟨_, .ret⟩
  | jmp => exact ⟨_, .jmp (hwf _ List.mem_cons_self)⟩
  | jeq =>
    cases hE : flagE s.fl with
    | true => exact ⟨_, .jeqTaken (hwf _ List.mem_cons_self) hE⟩
    | false => exact ⟨_, .jeqNotTaken hE⟩
  | jne =>
    cases hE : flagE s.fl with
    | true => exact ⟨_, .jneNotTaken hE⟩
    | false => exact ⟨_, .jneTaken (hwf _ List.mem_cons_self) hE⟩

/-- An instruction that accesses no register operand completes: it is a jump that is not taken. -/
theorem completes_of_not_accesses {i : Instr} {s : State} (hacc : ¬ i.accesses s.fl) : ∃ t, Completes s i t := by
  cases i with
  | jeq => exact ⟨_, .jeqNotTaken (Bool.eq_false_iff.mpr hacc)⟩
  | jne => exact ⟨_, .jneNotTaken (Bool.of_not_eq_false hacc)⟩
  | _ => exact absurd trivial hacc

/-- In every state an instruction completes or accesses an invalid register operand. -/
theorem completes_or_firstInvalid (i : Instr) (s : State) :
    (∃ t, Completes s i t) ∨ ∃ op, i.accesses s.fl ∧ i.firstInvalid = some op := by
  by_cases hacc : i.accesses s.fl
  · cases hop : i.firstInvalid with
    | none => exact .inl (completes_of_wellFormed (Instr.firstInvalid_eq_none.mp hop) s)
    | some op => exact .inr ⟨op, hacc, rfl⟩
  · exact .inl (completes_of_not_accesses hacc)

/-- Everything an instruction can do: complete, or take `InvalidRegister` in the state it began with (R50, R77). -/
theorem exec_next {i : Instr} {s t : State} (h : exec i s = .next t) :
    Completes s i t ∨ ∃ op, i.accesses s.fl ∧ i.firstInvalid = some op ∧ t = s.takeFault (.invalidRegister op) := by
  obtain ⟨u, hu⟩ | ⟨op, hacc, hop⟩ := completes_or_firstInvalid i s
  · cases h.symm.trans (exec_of_completes hu)
    exact .inl hu
  · cases h.symm.trans (exec_of_firstInvalid hacc hop)
    exact .inr ⟨op, hacc, hop, rfl⟩

/-- A well-formed instruction completes (R43(a)). -/
theorem completes_of_exec {i : Instr} {s t : State} (h : exec i s = .next t) (hwf : i.WellFormed) : Completes s i t := by
  obtain hc | ⟨op, -, hop, -⟩ := exec_next h
  · exact hc
  · cases (Instr.firstInvalid_eq_none.mpr hwf).symm.trans hop

/-! ## Every step completes (R88, log 15) -/

theorem exec_total (i : Instr) (s : State) : ∃ t, exec i s = .next t := by
  obtain ⟨t, ht⟩ | ⟨op, hacc, hop⟩ := completes_or_firstInvalid i s
  · exact ⟨t, exec_of_completes ht⟩
  · exact ⟨_, exec_of_firstInvalid hacc hop⟩

theorem singleStep_total (om : OpcodeMap) (s : State) : ∃ t, singleStep om s = .next t := by
  by_cases hr : s.Running
  · cases hf : fetch om s with
    | ok i =>
      rw [singleStep_of_fetch_ok hr hf]
      exact exec_total i s
    | error f => exact ⟨_, singleStep_of_fetch_error hr hf⟩
  · exact ⟨s, singleStep_of_not_running hr⟩

theorem runAt_total (om : OpcodeMap) (k : Nat) (s : State) : ∃ t, runAt om k s = .next t := by
  induction k generalizing s with
  | zero => exact ⟨s, runAt_zero om s⟩
  | succ k ih =>
    obtain ⟨u, hu⟩ := singleStep_total om s
    rw [runAt_succ k hu]
    exact ih u

/-- Settles O12: an instruction completes or takes its fault, a step adds the fetch's fault and the terminal states, and the host's
run is the run at the default map. -/
theorem everyStepCompletes : Obligations.EveryStepCompletes :=
  ⟨exec_total, singleStep_total opcodeMap, runAt_total opcodeMap⟩

/-- Settles O13: HLT has no operand to access, so it completes in every state. -/
theorem hltHalts : Obligations.HltHalts := fun _ => exec_of_completes .hlt

end Sys2Proof.Machine
end

section
/-!
PROOFS. The invariant of the machine (`spec/10_state.md` R14, R16, R20): what an instruction does to RAM, PC and FL, the fault record of
a step, the reset state, and every run: O48, O49, O50, O51 and O54.
-/

namespace Sys2Proof.Machine

/-! ## What an instruction does to RAM, PC and FL -/

/-- An instruction leaves RAM alone, or it is PUSH or CALL and writes the cell at the decremented SP (R30). -/
theorem exec_ram_cases {i : Instr} {s t : State} (h : exec i s = .next t) :
    t.ram = s.ram ∨
      (i.mnemonic = .push ∨ i.mnemonic = .call) ∧ ∃ v, t.ram = Memory.write s.ram s.decSp.stackAddr v := by
  obtain hc | ⟨op, -, -, rfl⟩ := exec_next h
  · cases hc with
    | push => exact .inr ⟨.inl rfl, _, rfl⟩
    | call => exact .inr ⟨.inr rfl, _, rfl⟩
    | _ => exact .inl rfl
  · exact .inl rfl

/-- The only cell an instruction writes exists, so RAM stays canonical. -/
theorem exec_ram_wf {i : Instr} {s t : State} (h : exec i s = .next t) (hram : Memory.wf s.ram) : Memory.wf t.ram := by
  obtain e | ⟨-, v, e⟩ := exec_ram_cases h
  · exact e ▸ hram
  · exact e ▸ Memory.wf_write hram (Nat.lt_succ_of_le s.decSp.stackAddr_le) v

/-- A sequential advance that stays within `PC_MAX` does not wrap (R14). -/
theorem State.advance_pc_le {s : State} {n : PcWord} {k : Nat} (h : s.pc.toNat + n.toNat ≤ k) :
    (s.advance n).pc.toNat ≤ k := by
  rw [State.advance_pc, BitVec.toNat_add]
  exact (Nat.mod_le _ _).trans h

/-- The target of a control transfer is an address of RAM (R65). -/
theorem zext9_le (v : Byte) : (zext9 v).toNat ≤ 255 := by
  have := v.isLt
  rw [zext9_toNat]
  omega

/-- An instruction whose last byte is in memory leaves PC at most `PC_MAX` (R14, R15). -/
theorem exec_pc_le {i : Instr} {s t : State} (h : exec i s = .next t) (hpc : s.pc.toNat + operandCount i.mnemonic ≤ 255) :
    t.pc.toNat ≤ Config.pcMax := by
  obtain hc | ⟨op, -, -, rfl⟩ := exec_next h
  · cases hc with
    | hlt | ldi | prn | add | mul | cmp | push | pop | jeqNotTaken | jneNotTaken =>
      exact State.advance_pc_le (Nat.succ_le_succ hpc)
    | call | ret | jmp | jeqTaken | jneTaken => exact (zext9_le _).trans (by decide)
  · exact (Nat.le_add_right _ _).trans (hpc.trans (by decide))

/-- Only CMP writes FL, and it writes one of 1, 2 and 4 (R16, R17). -/
theorem exec_flagsOk {i : Instr} {s t : State} (h : exec i s = .next t) (hfl : s.FlagsOk) : t.FlagsOk := by
  by_cases hcmp : i.mnemonic = .cmp
  · obtain ⟨op1, op2, rfl⟩ := eq_cmp_of_mnemonic hcmp
    obtain hc | ⟨op, -, -, rfl⟩ := exec_next h
    · cases hc with
      | cmp h1 h2 =>
        obtain ⟨-, e⟩ | ⟨-, e⟩ | ⟨-, e⟩ := compareBit_cases (s.reg ⟨op1.toNat, h1⟩) (s.reg ⟨op2.toNat, h2⟩)
        · exact .inr (.inl e)
        · exact .inr (.inr (.inl e))
        · exact .inr (.inr (.inr e))
    · exact hfl
  · rw [State.FlagsOk, exec_fl h hcmp]
    exact hfl

/-! ## The fault record of a step (R20, R72) -/

/-- A RUNNING core has no fault on record. -/
theorem State.CauseOk.of_running {om : OpcodeMap} {s : State} (h : s.CauseOk om) (hr : s.Running) :
    s.fcause = .none ∧ s.finfo = 0 := by
  obtain ⟨hc, -, hi⟩ | ⟨-, hf, -⟩ | ⟨-, hf, -⟩ | ⟨-, hf, -⟩ := h
  · exact ⟨hc, hi⟩
  all_goals cases hr.symm.trans hf

/-- An instruction keeps an empty fault record or writes that of an invalid register operand. -/
theorem exec_causeOk {om : OpcodeMap} {i : Instr} {s t : State} (h : exec i s = .next t) (hr : s.Running)
    (hcause : s.CauseOk om) : t.CauseOk om := by
  obtain ⟨op, -, hop, rfl⟩ | ⟨hc, hi, hst⟩ := exec_cases h
  · have hinfo : (CoreFault.invalidRegister op).info.toNat = op.toNat := zext9_toNat op
    exact .inr (.inr (.inr ⟨rfl, rfl, hinfo ▸ hop, zext9_le op⟩))
  · obtain ⟨hc', hi'⟩ := hcause.of_running hr
    refine .inl ⟨hc.trans hc', ?_, hi.trans hi'⟩
    rw [State.Faulted, hst, show s.status = .running from hr]
    split <;> decide

/-- A fault of the fetch leaves the record of an address past the end of memory or of an unknown opcode. -/
theorem fetch_error_causeOk {om : OpcodeMap} {s : State} {f : CoreFault} (h : fetch om s = .error f)
    (hpc : s.pc.toNat ≤ Config.pcMax) : (s.takeFault f).CauseOk om := by
  rw [pcMax_eq] at hpc
  obtain ⟨htop, e⟩ | ⟨-, hnone, e⟩ | ⟨m, -, -, ⟨-, e⟩ | ⟨-, e⟩⟩ := fetch_cases om s
  · have h256 : s.pc.toNat = 256 := by omega
    cases (h256 ▸ e).symm.trans h
    exact .inr (.inl ⟨rfl, rfl, rfl⟩)
  · cases e.symm.trans h
    refine .inr (.inr (.inl ⟨rfl, rfl, zext9_le _, ?_⟩))
    rw [State.takeFault_finfo, CoreFault.info, zext9_toNat, trunc8_byte]
    exact hnone
  · cases e.symm.trans h
    exact .inr (.inl ⟨rfl, rfl, rfl⟩)
  · cases e.symm.trans h

/-! ## Every step -/

/-- An instruction that was fetched has its last byte in memory (R46, R50). -/
theorem fetch_ok_le {om : OpcodeMap} {s : State} {i : Instr} (h : fetch om s = .ok i) :
    s.pc.toNat + operandCount i.mnemonic ≤ 255 ∧ s.byteAt s.pc.toNat = om i.mnemonic := by
  obtain ⟨-, e⟩ | ⟨-, -, e⟩ | ⟨m, -, hm, ⟨-, e⟩ | ⟨hfits, e⟩⟩ := fetch_cases om s
  all_goals cases e.symm.trans h
  rw [mnemonic_assemble]
  exact ⟨hfits, (lookupOpcode_some hm).symm⟩

theorem singleStep_invAt {om : OpcodeMap} {s t : State} (hinv : s.InvAt om) (h : singleStep om s = .next t) :
    t.InvAt om := by
  obtain ⟨-, rfl⟩ | ⟨-, f, hf, rfl⟩ | ⟨hr, i, hi, hexec⟩ := singleStep_cases h
  · exact hinv
  · obtain ⟨hpc, hram, hfl, -⟩ := hinv
    exact ⟨hpc, hram, hfl, fetch_error_causeOk hf hpc⟩
  · obtain ⟨-, hram, hfl, hcause⟩ := hinv
    exact ⟨exec_pc_le hexec (fetch_ok_le hi).1, exec_ram_wf hexec hram, exec_flagsOk hexec hfl, exec_causeOk hexec hr hcause⟩

/-- Settles O50: the step keeps each part of the invariant: PC by `exec_pc_le`, RAM by `exec_ram_wf`, FL by `exec_flagsOk`, the fault
record by `exec_causeOk` and `fetch_error_causeOk`. -/
theorem stepKeepsTheInvariant : Obligations.StepKeepsTheInvariant := fun _ _ => singleStep_invAt

/-! ## Reset and every run -/

/-- What holds in the state a run starts in, and what every step keeps, holds in every state the run reaches (R86). -/
theorem runAt_induction {om : OpcodeMap} {P : State → Prop} (hstep : ∀ s t, P s → singleStep om s = .next t → P t)
    (k : Nat) {s t : State} (hs : P s) (h : runAt om k s = .next t) : P t := by
  induction k generalizing s with
  | zero => cases h; exact hs
  | succ k ih =>
    obtain ⟨u, hu⟩ := singleStep_total om s
    rw [runAt_succ k hu] at h
    exact ih (hstep s u hs hu) h

theorem invAt_resetImage (om : OpcodeMap) (image : Image) : (State.resetImage image).InvAt om :=
  ⟨Nat.zero_le _, (Memory.wf_ofBytes 0 image.toList (by simp)).1, .inl rfl, .inl ⟨rfl, nofun, rfl⟩⟩

theorem runAt_invAt (om : OpcodeMap) (image : Image) (k : Nat) (t : State)
    (h : runAt om k (State.resetImage image) = .next t) : t.InvAt om :=
  runAt_induction (fun _ _ => singleStep_invAt) k (invAt_resetImage om image) h

/-- Settles O48: the reset state lists no cell and has no fault on record. -/
theorem resetMeetsTheInvariant : Obligations.ResetMeetsTheInvariant :=
  ⟨Nat.zero_le _, Memory.wf_nil, .inl rfl, .inl ⟨rfl, nofun, rfl⟩⟩

/-- Settles O49: the image's memory is canonical and the other elements are those of the reset state. -/
theorem everyImageMeetsTheInvariant : Obligations.EveryImageMeetsTheInvariant := invAt_resetImage opcodeMap

/-- Settles O51: the invariant holds after `Reset(IMAGE)`, and every step keeps it. -/
theorem everyReachableStateMeetsTheInvariant : Obligations.EveryReachableStateMeetsTheInvariant := runAt_invAt opcodeMap

/-- Settles O54: neither the step lemma nor the start of a run rests on the byte values of the map. -/
theorem invariantIsKeptAtEveryMap : Obligations.InvariantIsKeptAtEveryMap :=
  fun om => ⟨fun _ _ => singleStep_invAt, runAt_invAt om⟩

end Sys2Proof.Machine
end

section
/-!
PROOFS. The step against the decoder (`spec/30_encoding.md` R44, R46, `spec/40_step_hlt_ldi_prn.md` R50, `spec/60_exceptions.md` R72 to
R79): the fetch is the decoder run on the bytes at PC, at every `OPCODE_MAP`; O4, O5, O6, O7, O52 and O53. How a step can end: O8, O9,
O10, O11 and O44.
-/

namespace Sys2Proof

/-! ## The decoder by the number of bytes that follow the opcode -/

/-- An operand argument that the format lacks is ignored (R45). -/
theorem assemble_congr {m : Mnemonic} {a a' b b' : Byte} (ha : 1 ≤ operandCount m → a = a')
    (hb : operandCount m = 2 → b = b') : assemble m a b = assemble m a' b' := by
  cases m with
  | hlt | ret => rfl
  | prn | push | pop | call | jmp | jeq | jne => rw [ha (by decide)]; rfl
  | ldi | add | mul | cmp => rw [ha (by decide), hb (by decide)]

/-- The longest format has two operand bytes (R40). -/
theorem operandCount_le (m : Mnemonic) : operandCount m ≤ 2 := by cases m <;> decide

/-- Fewer bytes than the format has operands are no instruction (R46). -/
theorem decodeWith_of_short {om : OpcodeMap} {opc : Byte} {m : Mnemonic} {tail : List Byte}
    (hm : lookupOpcode om opc = some m) (hlen : tail.length < operandCount m) :
    ∃ k, decodeWith om (opc :: tail) = .error (.truncated k) := by
  simp only [decodeWith, hm]
  split
  · next h => rw [h] at hlen; cases hlen
  · exact ⟨1, rfl⟩
  · next h => rw [h, List.length_cons] at hlen; omega
  · exact ⟨2, rfl⟩
  · have hcount := operandCount_le m
    simp only [List.length_cons] at hlen
    omega

/-- As many bytes as the format has operands are read as those operands (R40). -/
theorem decodeWith_of_le {om : OpcodeMap} {opc : Byte} {m : Mnemonic} {tail : List Byte}
    (hm : lookupOpcode om opc = some m) (hlen : operandCount m ≤ tail.length) :
    ∃ rest, decodeWith om (opc :: tail) = .ok (assemble m (tail.getD 0 0) (tail.getD 1 0), rest) := by
  simp only [decodeWith, hm]
  split
  · next h => exact ⟨_, by rw [assemble_congr (by omega) (by omega)]⟩
  · next h => rw [h, List.length_nil] at hlen; omega
  · next h => exact ⟨_, by rw [assemble_congr (fun _ => rfl) (by omega)]; rfl⟩
  · next h => rw [h, List.length_singleton] at hlen; omega
  · exact ⟨_, rfl⟩

theorem decodeWith_of_lookup_none {om : OpcodeMap} {opc : Byte} (hm : lookupOpcode om opc = none) (tail : List Byte) :
    decodeWith om (opc :: tail) = .error (.unknownOpcode opc) := by
  simp only [decodeWith, hm]

end Sys2Proof

namespace Sys2Proof.Machine

open Sys2Proof.Claims

/-! ## The fetch is the decoder run on the bytes at PC -/

theorem State.codeBytes_of_gt {s : State} (h : 255 < s.pc.toNat) : s.codeBytes = [] := by
  have h0 : ¬ s.pc.toNat ≤ 255 := by omega
  have h1 : ¬ s.pc.toNat + 1 ≤ 255 := by omega
  have h2 : ¬ s.pc.toNat + 2 ≤ 255 := by omega
  simp [State.codeBytes, List.range_succ, h0, h1, h2]

/-- The opcode byte and those of the two bytes after it that lie below 256. -/
theorem State.codeBytes_cases {s : State} (h : s.pc.toNat ≤ 255) :
    (s.pc.toNat = 255 ∧ s.codeBytes = [s.byteAt s.pc.toNat]) ∨
    (s.pc.toNat = 254 ∧ s.codeBytes = [s.byteAt s.pc.toNat, s.byteAt (s.pc.toNat + 1)]) ∨
    (s.pc.toNat ≤ 253 ∧
      s.codeBytes = [s.byteAt s.pc.toNat, s.byteAt (s.pc.toNat + 1), s.byteAt (s.pc.toNat + 2)]) := by
  by_cases h255 : s.pc.toNat = 255
  · exact .inl ⟨h255, by simp [State.codeBytes, List.range_succ, h255]⟩
  by_cases h254 : s.pc.toNat = 254
  · exact .inr (.inl ⟨h254, by simp [State.codeBytes, List.range_succ, h254]⟩)
  · have hle : s.pc.toNat ≤ 253 := by omega
    exact .inr (.inr ⟨hle, State.codeBytes_of_le hle⟩)

/-- The fault a step takes for what the decoder rejects (R46, R73, R74). -/
def decodeFault : DecodeError → CoreFault
  | .unknownOpcode opc => .unknownInstruction opc
  | .truncated _ => .outOfRange 256

/-- What the step makes of the decoder's answer: the instruction, or the fault. -/
def fetchOutcome : Except DecodeError (Instr × List Byte) → Except CoreFault Instr
  | .ok (i, _) => .ok i
  | .error e => .error (decodeFault e)

/-- The fetch, byte by byte, answers what the decoder makes of the bytes from PC to the top of memory (R46, R50). -/
theorem fetch_eq_decodeWith (om : OpcodeMap) {s : State} (hpc : s.pc.toNat ≤ Config.pcMax) :
    fetch om s = fetchOutcome (decodeWith om s.codeBytes) := by
  rw [pcMax_eq] at hpc
  obtain ⟨htop, e⟩ | ⟨hle, hnone, e⟩ | ⟨m, hle, hm, ⟨hmissing, e⟩ | ⟨hfits, e⟩⟩ := fetch_cases om s
  · have h256 : s.pc.toNat = 256 := by omega
    rw [e, State.codeBytes_of_gt htop, h256]
    rfl
  · obtain ⟨-, hb⟩ | ⟨-, hb⟩ | ⟨-, hb⟩ := State.codeBytes_cases hle
    all_goals
      rw [e, hb, decodeWith_of_lookup_none hnone]
      rfl
  · have hcount := operandCount_le m
    have hshort : ∃ k, decodeWith om s.codeBytes = .error (.truncated k) := by
      obtain ⟨h, hb⟩ | ⟨h, hb⟩ | ⟨h, hb⟩ := State.codeBytes_cases hle
      · exact hb ▸ decodeWith_of_short hm (show 0 < _ by omega)
      · exact hb ▸ decodeWith_of_short hm (show 1 < _ by omega)
      · omega
    obtain ⟨k, hk⟩ := hshort
    rw [e, hk]
    rfl
  · obtain ⟨h, hb⟩ | ⟨h, hb⟩ | ⟨h, hb⟩ := State.codeBytes_cases hle
    · obtain ⟨rest, hd⟩ := decodeWith_of_le hm (tail := []) (show _ ≤ 0 by omega)
      rw [e, hb, hd, assemble_congr (a' := 0) (b' := 0) (by omega) (by omega)]
      rfl
    · obtain ⟨rest, hd⟩ := decodeWith_of_le hm (tail := [s.byteAt (s.pc.toNat + 1)]) (show _ ≤ 1 by omega)
      rw [e, hb, hd, assemble_congr (b' := 0) (fun _ => rfl) (by omega)]
      rfl
    · obtain ⟨rest, hd⟩ :=
        decodeWith_of_le hm (tail := [s.byteAt (s.pc.toNat + 1), s.byteAt (s.pc.toNat + 2)]) (operandCount_le m)
      rw [e, hb, hd]
      rfl

/-- Settles O53: at every map the step takes the instruction or the fault of `fetch_eq_decodeWith`. -/
theorem stepAtEveryMapRefinesItsDecoder : Obligations.StepAtEveryMapRefinesItsDecoder := by
  refine ⟨fun _ => rfl, fun om s => ⟨singleStep_of_not_running, fun hr hpc => ?_⟩⟩
  have hfetch := fetch_eq_decodeWith om hpc
  cases hd : decodeWith om s.codeBytes with
  | ok p =>
    rw [hd] at hfetch
    exact singleStep_of_fetch_ok hr hfetch
  | error e =>
    rw [hd] at hfetch
    cases e <;> exact singleStep_of_fetch_error hr hfetch

/-- Settles O6: the default map's case of O53. -/
theorem stepRefinesTheDecoder : Obligations.StepRefinesTheDecoder :=
  fun s => (stepAtEveryMapRefinesItsDecoder.2 opcodeMap s).2

/-- Settles O5: bytes that decode lie below 256, where the fetch is the decoder. -/
theorem stepRunsTheDecodedInstruction : Obligations.StepRunsTheDecodedInstruction := by
  intro s i rest hr hd
  have hpc : s.pc.toNat ≤ 255 := by
    by_contra hgt
    rw [State.codeBytes_of_gt (by omega)] at hd
    cases hd
  have hfetch := fetch_eq_decodeWith opcodeMap (hpc.trans (by decide))
  rw [show decodeWith opcodeMap s.codeBytes = .ok (i, rest) from hd] at hfetch
  exact step_of_fetch_ok hr hfetch

/-! ## Unknown opcodes and the order of faults (R44, R78) -/

/-- An unknown opcode byte faults whatever follows it, also at 255 (R44). -/
theorem step_of_unknown {s : State} (hr : s.Running) (hpc : s.pc.toNat ≤ 255)
    (hnone : lookupOpcode opcodeMap (s.byteAt s.pc.toNat) = none) :
    step s = .next (faulted s .unknownInstruction ((s.byteAt s.pc.toNat).setWidth 9)) := by
  obtain ⟨htop, -⟩ | ⟨-, -, e⟩ | ⟨m, -, hm, -⟩ := fetch_cases opcodeMap s
  · omega
  · exact step_of_fetch_error hr e
  · cases hnone.symm.trans hm

/-- Settles O4: the lookup compares the whole byte with the 13 values, so a byte outside them is rejected before any operand. -/
theorem unknownOpcodesAreRejected : Obligations.UnknownOpcodesAreRejected := by
  refine ⟨by decide +kernel, fun m => by cases m <;> decide, fun opc rest hunknown => ?_,
    fun s opc hr hpc hopc hunknown => ?_⟩
  · exact decodeWith_of_lookup_none (lookupOpcode_none.mpr hunknown) rest
  · subst hopc
    exact step_of_unknown hr hpc (lookupOpcode_none.mpr hunknown)

/-- Settles O7: the branches are those of `fetch_cases`, and an instruction whose op1 is invalid never accesses op2. -/
theorem faultsAreMetInStepOrder : Obligations.FaultsAreMetInStepOrder := by
  refine ⟨fun s hr hpc => ?_, fun s a b ha _ =>
    ⟨conclude_regIndex_of_ge ha s _, conclude_regIndex_of_ge ha s _, conclude_regIndex_of_ge ha s _⟩⟩
  obtain ⟨htop, e⟩ | ⟨hle, hnone, e⟩ | ⟨m, hle, hm, ⟨hmissing, e⟩ | ⟨hfits, e⟩⟩ := fetch_cases opcodeMap s
  · have h256 : s.pc.toNat = 256 := by omega
    rw [if_pos h256]
    exact step_of_fetch_error hr (h256 ▸ e)
  · rw [if_neg (by omega), hnone]
    exact step_of_fetch_error hr e
  · rw [if_neg (by omega), hm]
    exact (step_of_fetch_error hr e).trans (if_pos hmissing).symm
  · rw [if_neg (by omega), hm]
    exact (step_of_fetch_ok hr e).trans (if_neg (by omega)).symm

/-! ## An instruction given as one number (log 5) -/

/-- The three bytes placed at PC are the code bytes there. -/
theorem State.codeBytes_withFetchWord {s : State} (hram : Memory.wf s.ram) (hpc : s.pc.toNat ≤ 253) (nbits w : Nat) :
    (s.withFetchWord nbits w).codeBytes = wordBytes nbits w := by
  have hbyte {k : Nat} (hk : k < 3) : (s.withFetchWord nbits w).byteAt (s.pc.toNat + k) = (wordBytes nbits w).getD k 0 := by
    refine (Memory.read_placeBytes hram s.pc.toNat (wordBytes nbits w) (by omega)).trans ?_
    rw [if_pos ⟨Nat.le_add_right _ _, Nat.add_lt_add_left hk _⟩, Nat.add_sub_cancel_left]
  have hpc' : (s.withFetchWord nbits w).pc = s.pc := rfl
  rw [State.codeBytes_of_le (by rwa [hpc']), hpc', hbyte (k := 1) (by decide), hbyte (k := 2) (by decide),
    ← Nat.add_zero s.pc.toNat, hbyte (k := 0) (by decide)]
  rfl

/-- Settles O52: the word's bytes stand at PC, so the step runs what they decode to. -/
theorem fetchWordIsRunNext : Obligations.FetchWordIsRunNext := by
  intro s nbits w i hram hpc hdecode
  cases hd : decode (wordBytes nbits w) with
  | error e => simp only [decodeTableWord, hd, reduceCtorEq] at hdecode
  | ok p =>
    simp only [decodeTableWord, hd, Option.some.injEq] at hdecode
    rw [← State.codeBytes_withFetchWord hram hpc] at hd
    exact stepRunsTheDecodedInstruction _ i p.2 rfl (hdecode ▸ hd)

/-! ## How a step can end -/

/-- Settles O8: the fields that `takeFault` writes, and the four codes. -/
theorem faultCodesAndInfo : Obligations.FaultCodesAndInfo := by
  refine fun s => ⟨⟨rfl, rfl⟩, fun opc => ⟨?_, rfl⟩, fun op => ⟨?_, rfl⟩, fun c => by cases c <;> decide⟩
  all_goals
    rw [BitVec.ofNat_toNat]
    rfl

/-- Settles O9: a step answers the same state, and a run only repeats it. -/
theorem terminalStatesNeverChange : Obligations.TerminalStatesNeverChange := by
  refine fun s hr => ⟨step_of_not_running hr, fun k => ?_⟩
  obtain ⟨t, ht⟩ := runAt_total opcodeMap k s
  have hsame : t = s := by
    refine runAt_induction (P := (· = s)) (fun u v hu hv => ?_) k rfl ht
    subst hu
    cases (singleStep_of_not_running hr).symm.trans hv
    rfl
  exact hsame ▸ ht

theorem CoreFault.cause_ne_none (f : CoreFault) : f.cause ≠ .none := by cases f <;> nofun

/-- Settles O10: the fault of the fetch or of the instruction is taken in the state the step began with; a completed instruction
leaves STATUS RUNNING or HALTED. -/
theorem faultsArePrecise : Obligations.FaultsArePrecise := by
  intro s t hr hstep hfaulted
  obtain ⟨hnot, -⟩ | ⟨-, f, -, rfl⟩ | ⟨-, i, -, hexec⟩ := step_cases hstep
  · exact absurd hr hnot
  · exact ⟨rfl, f.cause_ne_none⟩
  · obtain ⟨op, -, -, rfl⟩ | ⟨-, -, hst⟩ := exec_cases hexec
    · exact ⟨rfl, CoreFault.cause_ne_none (.invalidRegister op)⟩
    · rw [hfaulted, show s.status = .running from hr] at hst
      split at hst <;> cases hst

/-- From a RUNNING state an instruction halts the core exactly if it is HLT. -/
theorem exec_halted_iff {i : Instr} {s t : State} (hr : s.Running) (h : exec i s = .next t) : t.Halted ↔ i = .hlt := by
  obtain ⟨op, hop, -, rfl⟩ | ⟨-, -, hst⟩ := exec_cases h
  · exact ⟨nofun, fun e => by subst e; cases hop⟩
  · rw [State.Halted, hst, show s.status = .running from hr]
    split <;> simp_all

theorem eq_hlt_of_mnemonic {i : Instr} (h : i.mnemonic = .hlt) : i = .hlt := by
  cases i with
  | hlt => rfl
  | _ => cases h

/-- A known opcode whose operand bytes lie below 256 is fetched (R46, R50). -/
theorem fetch_ok_of_le {om : OpcodeMap} (hom : om.Injective) {s : State} {m : Mnemonic}
    (hbyte : s.byteAt s.pc.toNat = om m) (hpc : s.pc.toNat + operandCount m ≤ 255) : ∃ i, fetch om s = .ok i := by
  obtain ⟨htop, -⟩ | ⟨-, hnone, -⟩ | ⟨m', -, hm, ⟨hmissing, -⟩ | ⟨-, hok⟩⟩ := fetch_cases om s
  · omega
  · exact absurd hbyte.symm (lookupOpcode_none.mp hnone m)
  · rw [hbyte, lookupOpcode_self hom, Option.some.injEq] at hm
    subst hm
    omega
  · exact ⟨_, hok⟩

/-- The fetched instruction is HLT exactly if the byte at PC is its opcode (R41). -/
theorem fetched_hlt_iff {s : State} {i : Instr} (h : fetch opcodeMap s = .ok i) :
    i = .hlt ↔ s.byteAt s.pc.toNat = opcodeMap .hlt := by
  rw [(fetch_ok_le h).2]
  exact ⟨fun e => e ▸ rfl, fun e => eq_hlt_of_mnemonic (opcodeMap_injective _ _ e)⟩

/-- Settles O11: a fault of the fetch is no HLT opcode, and a fetched instruction halts exactly if it is HLT. -/
theorem onlyHltHalts : Obligations.OnlyHltHalts := by
  intro s t hr hstep
  obtain ⟨hnot, -⟩ | ⟨-, f, hf, rfl⟩ | ⟨-, i, hi, hexec⟩ := step_cases hstep
  · exact absurd hr hnot
  · refine ⟨⟨nofun, fun ⟨hpc, hbyte⟩ => ?_⟩, nofun⟩
    obtain ⟨i, hi⟩ := fetch_ok_of_le opcodeMap_injective hbyte hpc
    cases hf.symm.trans hi
  · have hpc : s.pc.toNat ≤ 255 := (Nat.le_add_right _ _).trans (fetch_ok_le hi).1
    refine ⟨?_, fun ht => ?_⟩
    · rw [exec_halted_iff hr hexec, fetched_hlt_iff hi]
      exact (and_iff_right hpc).symm
    · obtain rfl := (exec_halted_iff hr hexec).mp ht
      cases (hltHalts s).symm.trans hexec
      rfl

/-- Settles O44: the fetch's `OutOfRange` has the address 256, and no instruction records one. -/
theorem onlyFetchIsOutOfRange : Obligations.OnlyFetchIsOutOfRange := by
  intro s t hinv hr hstep hcause
  obtain ⟨hpc, -, -, hrecord⟩ := hinv
  rw [pcMax_eq] at hpc
  obtain ⟨hnot, -⟩ | ⟨-, f, hf, rfl⟩ | ⟨-, i, hi, hexec⟩ := step_cases hstep
  · exact absurd hr hnot
  · obtain ⟨htop, e⟩ | ⟨-, -, e⟩ | ⟨m, hle, hm, ⟨hmissing, e⟩ | ⟨-, e⟩⟩ := fetch_cases opcodeMap s
    · have h256 : s.pc.toNat = 256 := by omega
      cases (h256 ▸ e).symm.trans hf
      exact ⟨rfl, .inl h256⟩
    · cases e.symm.trans hf
      cases hcause
    · cases e.symm.trans hf
      have hcount := operandCount_le m
      exact ⟨rfl, .inr ⟨m, hm, by omega⟩⟩
    · cases e.symm.trans hf
  · obtain ⟨op, -, -, rfl⟩ | ⟨hc, -, -⟩ := exec_cases hexec
    · cases hcause
    · rw [hc, (hrecord.of_running hr).1] at hcause
      cases hcause

end Sys2Proof.Machine
end

section
/-!
PROOFS. CMP and the control transfers (`spec/41_alu_add_mul_cmp.md` R59, `spec/43_control_call_ret_jmp_jeq_jne.md` R65 to R70): the flags
after a comparison, O18 and O19; CALL, O24; the conditional jumps, O27, O28 and O29; the new PC of every instruction, O30 and O31.
-/

namespace Sys2Proof.Machine

open Sys2Proof.Claims

/-! ## CMP -/

/-- The bit a comparison sets, by the values as numbers (R59). -/
theorem compareBit_eq_ite (a b : Byte) :
    compareBit a b = if a.toNat = b.toNat then 1 else if a.toNat > b.toNat then 2 else 4 := by
  simp only [compareBit, BitVec.toNat_inj]

/-- Settles O18: two valid registers give the state of `exec_cmp`; otherwise the first access that is invalid faults, and
`fetchFaults` covers 254 and 255. -/
theorem cmpWritesExactlyOneFlag : Obligations.CmpWritesExactlyOneFlag := by
  refine ⟨fun op1 op2 s h1 h2 => ?_, fun _ _ s h => conclude_regIndex_of_ge h s _,
    fun _ _ s h1 h2 => conclude_regIndex_of_second_ge h1 h2 s _, fetchFaults .cmp⟩
  rw [exec_cmp h1 h2, compareBit_eq_ite]
  rfl

/-- `E` after a comparison says whether the values were equal (R16). -/
theorem flagE_compareBit (a b : Byte) : flagE (compareBit a b) = decide (a = b) := by
  obtain ⟨h, e⟩ | ⟨h, e⟩ | ⟨h, e⟩ := compareBit_cases a b
  · rw [e, decide_eq_true h]; rfl
  · rw [e, decide_eq_false fun hab => h.ne' (congrArg BitVec.toNat hab)]; rfl
  · rw [e, decide_eq_false fun hab => h.ne (congrArg BitVec.toNat hab)]; rfl

/-- Settles O19: in each of the three outcomes of the comparison the flags are those of one literal. -/
theorem flagsAreExclusiveAfterCmp : Obligations.FlagsAreExclusiveAfterCmp := by
  intro op1 op2 s t h1 h2 h
  cases h.symm.trans (exec_cmp h1 h2 s)
  simp only [State.advance_fl, State.setFl_fl, State.reg_eq]
  obtain ⟨hab, e⟩ | ⟨hab, e⟩ | ⟨hab, e⟩ := compareBit_cases s.regs[op1.toNat] s.regs[op2.toNat]
  · rw [e, hab]
    simp [flagE, flagG, flagL]
  · simp [e, hab, hab.ne', hab.le, flagE, flagG, flagL]
  · simp [e, hab, hab.ne, hab.le, flagE, flagG, flagL]

/-! ## CALL -/

/-- Settles O24: a valid register gives the state of `exec_call_byteAt`, an invalid one the fault of the first access, and
`fetchFaults` covers 255. -/
theorem callPushesTheReturnAddress : Obligations.CallPushesTheReturnAddress := by
  refine ⟨fun op1 s h hram => ?_, fun _ s h => conclude_regIndex_of_ge h s _, fetchFaults .call⟩
  obtain ⟨t, hexec, ht, hbyte⟩ := exec_call_byteAt h hram
  rw [State.target, State.reg_decSp] at ht
  rw [State.stackAddr, State.sp_decSp] at hbyte
  exact ⟨t, hexec, ht, hbyte⟩

/-! ## JEQ and JNE -/

/-- Settles O27: taken with a valid or an invalid register, not taken, and `fetchFaults` at 255. -/
theorem jeqJumpsWhenEqual : Obligations.JeqJumpsWhenEqual :=
  ⟨fun _ _ h hE => exec_jeq_of_flagE h hE,
    fun op1 _ h hE => exec_of_firstInvalid (i := .jeq op1) hE (Instr.firstInvalid_of_head rfl h),
    fun _ _ hE => exec_jeq_of_not_flagE hE, fetchFaults .jeq⟩

/-- Settles O28: taken with a valid or an invalid register, not taken, and `fetchFaults` at 255. -/
theorem jneJumpsWhenNotEqual : Obligations.JneJumpsWhenNotEqual :=
  ⟨fun _ _ h hE => exec_jne_of_not_flagE h hE,
    fun op1 _ h hE => exec_of_firstInvalid (i := .jne op1) hE (Instr.firstInvalid_of_head rfl h),
    fun _ _ hE => exec_jne_of_flagE hE, fetchFaults .jne⟩

/-- Settles O29: after CMP, `E` says whether the values were equal, and the registers are as before. -/
theorem jumpsFollowThePriorComparison : Obligations.JumpsFollowThePriorComparison := by
  intro a b c s t ha hb hc h
  cases h.symm.trans (exec_cmp ha hb s)
  set t := (s.setFl (compareBit (s.reg ⟨a.toNat, ha⟩) (s.reg ⟨b.toNat, hb⟩))).advance 3
  have hE : flagE t.fl = decide (s.regs[a.toNat] = s.regs[b.toNat]) := flagE_compareBit _ _
  have hpc : (t.advance 2).pc = s.pc + 5 := BitVec.add_assoc s.pc 3 2
  by_cases heq : s.regs[a.toNat] = s.regs[b.toNat]
  · rw [decide_eq_true heq] at hE
    rw [if_pos heq, if_pos heq, ← hpc]
    exact ⟨exec_jeq_of_flagE hc hE, exec_jne_of_flagE hE⟩
  · rw [decide_eq_false heq] at hE
    rw [if_neg heq, if_neg heq, ← hpc]
    exact ⟨exec_jeq_of_not_flagE hE, exec_jne_of_not_flagE hc hE⟩

/-! ## The new PC -/

/-- A control transfer that completes ends at a zero-extended byte (R65). -/
theorem completes_transfer {i : Instr} {op1 : Byte} {s t : State} (h : Completes s i t)
    (hi : i = .call op1 ∨ i = .ret ∨ i = .jmp op1 ∨ (i = .jeq op1 ∧ flagE s.fl = true) ∨
      (i = .jne op1 ∧ flagE s.fl = false)) :
    ∃ v, t.pc = zext9 v := by
  cases h with
  | call | ret | jmp | jeqTaken | jneTaken => exact ⟨_, rfl⟩
  | _ => simp_all

/-- Settles O30: a zero-extended byte is an address of RAM. -/
theorem transfersLandInMemory : Obligations.TransfersLandInMemory := by
  intro i op1 s t hwf h hi
  obtain ⟨v, hv⟩ := completes_transfer (completes_of_exec h hwf) hi
  have hle : t.pc.toNat ≤ 255 := hv ▸ zext9_le v
  exact ⟨hle, memRead_of_le t hle⟩

theorem State.getD_regs (s : State) {n : Nat} (h : n < 8) : s.regs[n]?.getD 0 = s.reg ⟨n, h⟩ := by
  simp [State.reg_eq, h]

/-- Settles O31: the PC of the state in which each instruction completes. -/
theorem pcAdvancesByTheTable : Obligations.PcAdvancesByTheTable := by
  intro i s t h hwf
  cases completes_of_exec h hwf with
  | hlt | ldi | prn | add | mul | cmp | push | pop | ret => rfl
  | call h1 =>
    simp only [State.getD_regs s h1, State.setPc_pc, State.target, State.reg_decSp]
    rfl
  | jmp h1 =>
    simp only [State.getD_regs s h1]
    rfl
  | jeqTaken h1 hE =>
    simp only [State.getD_regs s h1]
    exact (if_pos hE).symm
  | jeqNotTaken hE => exact (if_neg (Bool.eq_false_iff.mp hE)).symm
  | jneTaken h1 hE =>
    simp only [State.getD_regs s h1]
    exact (if_neg (Bool.eq_false_iff.mp hE)).symm
  | jneNotTaken hE => exact (if_pos hE).symm

end Sys2Proof.Machine
end

section
/-!
PROOFS. Frames (`spec/10_state.md` R10, `spec/20_memory.md` R30): the registers, the bytes of RAM, OUT and the fault record that an
instruction leaves alone, each said once for all 13; O32 to O36 are the cases of each family.
-/

namespace Sys2Proof

/-- The registers an instruction may write, by number (R10). -/
def Instr.writtenRegs : Instr → List Nat
  | .ldi op1 _ | .add op1 _ | .mul op1 _ => [op1.toNat]
  | .pop op1 => [op1.toNat, 7]
  | .push _ | .call _ | .ret => [7]
  | .hlt | .prn _ | .cmp _ _ | .jmp _ | .jeq _ | .jne _ => []

end Sys2Proof

namespace Sys2Proof.Machine

section Frames

variable {i : Instr} {s t : State}

/-- A register that an instruction does not write keeps its value. -/
theorem exec_reg (h : exec i s = .next t) {r : Fin 8} (hr : r.val ∉ i.writtenRegs) : t.reg r = s.reg r := by
  obtain hc | ⟨op, -, -, rfl⟩ := exec_next h
  · cases hc with
    | hlt | prn | cmp | jmp | jeqTaken | jeqNotTaken | jneTaken | jneNotTaken => rfl
    | ldi | add | mul => exact s.reg_setReg_ne _ (Fin.ne_of_val_ne (List.ne_of_not_mem_cons hr))
    | push | call => exact s.reg_decSp_ne (Fin.ne_of_val_ne (List.ne_of_not_mem_cons hr))
    | ret => exact State.reg_incSp_ne _ (Fin.ne_of_val_ne (List.ne_of_not_mem_cons hr))
    | pop =>
      have h7 := List.ne_of_not_mem_cons (List.not_mem_of_not_mem_cons hr)
      exact (State.reg_incSp_ne _ (Fin.ne_of_val_ne h7)).trans
        (s.reg_setReg_ne _ (Fin.ne_of_val_ne (List.ne_of_not_mem_cons hr)))
  · rfl

/-- No instruction writes a byte of RAM but the one at the decremented SP (R30). -/
theorem exec_byteAt_ne (h : exec i s = .next t) {a : Nat} (ha : a ≠ s.decSp.stackAddr) : t.byteAt a = s.byteAt a := by
  obtain e | ⟨-, v, e⟩ := exec_ram_cases h
  · exact State.byteAt_congr e a
  · rw [State.byteAt_eq, e, Memory.read_write_ne _ _ ha.symm, State.byteAt_eq]

/-- Only PUSH and CALL write RAM (R30). -/
theorem exec_byteAt (h : exec i s = .next t) (hi : ¬ (i.mnemonic = .push ∨ i.mnemonic = .call)) (a : Nat) :
    t.byteAt a = s.byteAt a := by
  obtain e | ⟨hw, -⟩ := exec_ram_cases h
  · exact State.byteAt_congr e a
  · exact absurd hw hi

/-- An instruction leaves OUT alone, or it is PRN and appends one value (R21). -/
theorem exec_out_cases (h : exec i s = .next t) : t.out = s.out ∨ i.mnemonic = .prn ∧ ∃ v, t.out = s.out ++ [v] := by
  obtain hc | ⟨op, -, -, rfl⟩ := exec_next h
  · cases hc with
    | prn => exact .inr ⟨rfl, _, rfl⟩
    | _ => exact .inl rfl
  · exact .inl rfl

/-- Only PRN writes OUT (R21). -/
theorem exec_out (h : exec i s = .next t) (hprn : i.mnemonic ≠ .prn) : t.out = s.out := by
  obtain e | ⟨hi, -⟩ := exec_out_cases h
  · exact e
  · exact absurd hi hprn

/-- A well-formed instruction leaves the fault record alone, and STATUS unless it is HLT (R19, R20). -/
theorem exec_record (h : exec i s = .next t) (hwf : i.WellFormed) :
    t.fcause = s.fcause ∧ t.finfo = s.finfo ∧ t.status = if i = .hlt then .halted else s.status := by
  obtain ⟨op, hmem, hop, -⟩ | hrecord := exec_cases h
  · have := (Laws.RegisterOperands.wellFormed_iff i).mp hwf op hmem
    omega
  · exact hrecord

/-- A well-formed instruction other than HLT leaves STATUS and the fault record alone. -/
theorem exec_status_record (h : exec i s = .next t) (hwf : i.WellFormed) (hhlt : i ≠ .hlt) :
    t.status = s.status ∧ t.fcause = s.fcause ∧ t.finfo = s.finfo := by
  obtain ⟨hc, hi, hst⟩ := exec_record h hwf
  exact ⟨hst.trans (if_neg hhlt), hc, hi⟩

end Frames

/-- Settles O32: LDI, ADD and MUL write only the register op1. -/
theorem frameOfLdiAddMul : Obligations.FrameOfLdiAddMul := by
  rintro i op1 op2 s t (rfl | rfl | rfl) h
  all_goals exact ⟨fun r hr => exec_reg h (mt List.mem_singleton.mp hr), exec_fl h nofun, exec_out h nofun,
    exec_byteAt h nofun, fun hwf => exec_status_record h hwf nofun⟩

/-- Settles O33: PUSH and CALL write only R7 and the byte at the decremented SP. -/
theorem frameOfPushCall : Obligations.FrameOfPushCall := by
  rintro i op1 s t (rfl | rfl) h
  all_goals exact ⟨fun r hr => exec_reg h (mt List.mem_singleton.mp hr), exec_fl h nofun, exec_out h nofun,
    fun a ha => exec_byteAt_ne h ha, fun hwf => exec_status_record h hwf nofun⟩

/-- Settles O34: POP writes only op1 and R7, RET only R7. -/
theorem frameOfPopRet : Obligations.FrameOfPopRet := by
  refine ⟨fun op1 s t h => ⟨fun r h7 hr => exec_reg h ?_, exec_fl h nofun, exec_out h nofun, exec_byteAt h nofun,
    fun hop => exec_status_record h ?_ nofun⟩, fun s t h => ⟨fun r h7 => exec_reg h (mt List.mem_singleton.mp h7),
    exec_fl h nofun, exec_out h nofun, exec_byteAt h nofun, exec_status_record h rfl nofun⟩⟩
  · exact List.not_mem_cons_of_ne_of_not_mem hr (mt List.mem_singleton.mp h7)
  · simpa [Laws.RegisterOperands.wellFormed_iff, Instr.registerOperands] using hop

/-- Settles O35: JMP, JEQ and JNE write no register. -/
theorem frameOfJumps : Obligations.FrameOfJumps := by
  rintro i op1 s t (rfl | rfl | rfl) h
  all_goals exact ⟨fun r => exec_reg h List.not_mem_nil, exec_fl h nofun, exec_out h nofun, exec_byteAt h nofun,
    fun hwf => exec_status_record h hwf nofun⟩

/-- Settles O36: CMP, PRN and HLT write no register and no RAM; each one's own target is the exception of one lemma. -/
theorem frameOfCmpPrnHlt : Obligations.FrameOfCmpPrnHlt := by
  intro i op1 op2 s t hi h
  have hrecord (hwf : i.WellFormed) : t.fcause = s.fcause ∧ t.finfo = s.finfo := by
    obtain ⟨hc, hi, -⟩ := exec_record h hwf
    exact ⟨hc, hi⟩
  have hstatus (hwf : i.WellFormed) (hne : i ≠ .hlt) : t.status = s.status := (exec_status_record h hwf hne).1
  obtain rfl | rfl | rfl := hi
  · exact ⟨fun r => exec_reg h List.not_mem_nil, exec_byteAt h nofun, fun hne => absurd rfl hne,
      fun _ => exec_out h nofun, hrecord, hstatus⟩
  · exact ⟨fun r => exec_reg h List.not_mem_nil, exec_byteAt h nofun, fun _ => exec_fl h nofun,
      fun hne => absurd rfl hne, hrecord, hstatus⟩
  · exact ⟨fun r => exec_reg h List.not_mem_nil, exec_byteAt h nofun, fun _ => exec_fl h nofun,
      fun _ => exec_out h nofun, hrecord, hstatus⟩

end Sys2Proof.Machine
end

section
/-!
PROOFS. Memory, registers and output (`spec/20_memory.md` R26, R30, R37, `spec/10_state.md` R12, R20, R21): the write contract, the bytes
a store leaves and every later fetch of them, the append-only output, and the elements no instruction reads; O38 to O43. The reset
values and the image, O45 and O46.
-/

namespace Sys2Proof.Machine

open Sys2Proof.Claims

/-! ## Access to memory and registers -/

/-- Settles O38: below 256 the write is one write to a canonical RAM; above 255 it faults. -/
theorem memWriteContract : Obligations.MemWriteContract := by
  refine fun s addr v hram => ⟨fun hle => ⟨_, memWrite_of_le s v hle, rfl, Memory.wf_write hram (Nat.lt_succ_of_le hle) _,
    fun a => ?_⟩, memWrite_of_gt s v⟩
  rw [State.byteAt_setRam_write hram, ← trunc8_mod]
  rfl

/-- Settles O40: a read after a write, and the two cases of a register access. -/
theorem registerAccessContract : Obligations.RegisterAccessContract :=
  ⟨fun s r q v => s.reg_setReg r q v, fun _ h => regIndex_of_lt h, fun _ h => regIndex_of_ge h⟩

/-! ## What a step writes to memory -/

/-- Settles O39: by the frame lemmas of memory, a byte that changed lies at the decremented SP and the instruction is PUSH or CALL,
whose opcode was fetched at PC. -/
theorem onlyPushAndCallWriteMemory : Obligations.OnlyPushAndCallWriteMemory := by
  intro s t hr hstep a hne
  obtain ⟨hnot, -⟩ | ⟨-, f, -, rfl⟩ | ⟨-, i, hi, hexec⟩ := step_cases hstep
  · exact absurd hr hnot
  · exact absurd rfl hne
  · have haddr : a = s.decSp.stackAddr := by
      by_contra ha
      exact hne (exec_byteAt_ne hexec ha)
    have hmnemonic : i.mnemonic = .push ∨ i.mnemonic = .call := by
      by_contra hi
      exact hne (exec_byteAt hexec hi a)
    obtain ⟨hpc, hbyte⟩ := fetch_ok_le hi
    rw [State.stackAddr, State.sp_decSp] at haddr
    rw [hbyte]
    obtain h | h := hmnemonic
    all_goals
      rw [h] at hpc ⊢
      exact ⟨haddr, Nat.le_of_succ_le_succ hpc, by simp⟩

/-! ## What a fetch sees -/

/-- In memory the fetch reads the opcode and the operand bytes of RAM and nothing else (R46, R50, R78). -/
theorem fetch_eq_fetchFrom (om : OpcodeMap) {s : State} (hpc : s.pc.toNat ≤ 255) :
    fetch om s = fetchFrom om s.pc.toNat s.byteAt := by
  unfold fetchFrom
  obtain ⟨htop, -⟩ | ⟨-, hnone, e⟩ | ⟨m, -, hm, ⟨hmissing, e⟩ | ⟨hfits, e⟩⟩ := fetch_cases om s
  · omega
  · rw [e, hnone]
  · rw [hm]
    exact e.trans (if_pos hmissing).symm
  · rw [hm]
    exact e.trans (if_neg (by omega)).symm

/-- The bytes after PUSH or CALL: the stored one at the decremented SP, the old ones elsewhere (R63, R66). -/
theorem exec_store_byteAt {i : Instr} {op1 b : Byte} {s t : State} (h : op1.toNat < 8) (hram : Memory.wf s.ram)
    (hi : (i = .push op1 ∧ b = (if op1.toNat = 7 then s.sp - 1 else s.regs[op1.toNat])) ∨
      (i = .call op1 ∧ b = BitVec.ofNat 8 ((s.pc.toNat + 2) % 256)))
    (hexec : exec i s = .next t) : t.byteAt = byteAfter s (s.sp - 1).toNat b := by
  rw [← State.sp_decSp]
  obtain ⟨rfl, rfl⟩ | ⟨rfl, rfl⟩ := hi
  · obtain ⟨u, hu, -, hbyte⟩ := exec_push_byteAt h hram
    cases hexec.symm.trans hu
    rw [State.reg_decSp] at hbyte
    exact funext hbyte
  · obtain ⟨u, hu, -, hbyte⟩ := exec_call_byteAt h hram
    cases hexec.symm.trans hu
    exact funext hbyte

/-- Settles O41: reads and fetches depend on RAM and PC alone, and the bytes are those of `exec_store_byteAt`. -/
theorem nextFetchSeesTheStore : Obligations.NextFetchSeesTheStore := by
  intro om i op1 b s t u h hram hi hexec hu
  have hbyte : u.byteAt = byteAfter s (s.sp - 1).toNat b :=
    (funext (State.byteAt_congr hu)).trans (exec_store_byteAt h hram hi hexec)
  exact ⟨fun a ha => hbyte ▸ memRead_of_le u ha, fun hpc => hbyte ▸ fetch_eq_fetchFrom om hpc⟩

/-! ## Output (R21) -/

/-- A step leaves OUT alone, or runs PRN and appends one value. -/
theorem step_out {s t : State} (h : step s = .next t) :
    t.out = s.out ∨ (s.Running ∧ s.byteAt s.pc.toNat = opcodeMap .prn ∧ ∃ v, t.out = s.out ++ [v]) := by
  obtain ⟨-, rfl⟩ | ⟨-, f, -, rfl⟩ | ⟨hr, i, hi, hexec⟩ := step_cases h
  · exact .inl rfl
  · exact .inl rfl
  · obtain e | ⟨hprn, hv⟩ := exec_out_cases hexec
    · exact .inl e
    · exact .inr ⟨hr, hprn ▸ (fetch_ok_le hi).2, hv⟩

/-- Settles O42: what a run has printed stays in front, because each step appends at most one value. -/
theorem outputIsAppendOnly : Obligations.OutputIsAppendOnly := by
  refine ⟨fun s t => step_out, fun k s t hrun => ?_⟩
  refine runAt_induction (om := opcodeMap) (P := (s.out <+: ·.out)) (fun u v hu hstep => ?_) k List.prefix_rfl hrun
  obtain e | ⟨-, -, x, e⟩ := step_out hstep
  · exact e ▸ hu
  · exact e ▸ hu.trans (List.prefix_append u.out [x])

/-! ## FCAUSE, FINFO and OUT are never read (R20, R21) -/

/-- A state with another fault record and another output. -/
def State.withRecord (s : State) (c : FCause) (f : PcWord) (o : List Byte) : State := { s with fcause := c, finfo := f, out := o }

theorem completes_status {i : Instr} {s t : State} (h : Completes s i t) :
    t.status = if i = .hlt then .halted else s.status := by
  cases h <;> rfl

/-- With another fault record and output an instruction completes alike: it keeps the record and appends the same values. -/
theorem completes_withRecord {i : Instr} {s t : State} (c : FCause) (f : PcWord) (o : List Byte) (h : Completes s i t) :
    ∃ added, t.out = s.out ++ added ∧ Completes (s.withRecord c f o) i (t.withRecord c f (o ++ added)) := by
  have hsilent (hout : t.out = s.out) (hc : Completes (s.withRecord c f o) i (t.withRecord c f o)) :
      ∃ added, t.out = s.out ++ added ∧ Completes (s.withRecord c f o) i (t.withRecord c f (o ++ added)) :=
    ⟨[], by rw [hout, List.append_nil], by rwa [List.append_nil]⟩
  cases h with
  | prn h => exact ⟨[_], rfl, .prn h⟩
  | hlt => exact hsilent rfl .hlt
  | ldi h => exact hsilent rfl (.ldi h)
  | add h1 h2 => exact hsilent rfl (.add h1 h2)
  | mul h1 h2 => exact hsilent rfl (.mul h1 h2)
  | cmp h1 h2 => exact hsilent rfl (.cmp h1 h2)
  | push h => exact hsilent rfl (.push h)
  | pop h => exact hsilent rfl (.pop h)
  | call h => exact hsilent rfl (.call h)
  | ret => exact hsilent rfl .ret
  | jmp h => exact hsilent rfl (.jmp h)
  | jeqTaken h hE => exact hsilent rfl (.jeqTaken h hE)
  | jeqNotTaken hE => exact hsilent rfl (.jeqNotTaken hE)
  | jneTaken h hE => exact hsilent rfl (.jneTaken h hE)
  | jneNotTaken hE => exact hsilent rfl (.jneNotTaken hE)

theorem fetch_withRecord (om : OpcodeMap) (s : State) (c : FCause) (f : PcWord) (o : List Byte) :
    fetch om (s.withRecord c f o) = fetch om s := rfl

/-- Settles O43: the fetch and the choice of fault do not depend on the record or the output, a fault overwrites the record, and a
completed instruction is the one of `completes_withRecord`. -/
theorem faultRecordAndOutputAreNeverRead : Obligations.FaultRecordAndOutputAreNeverRead := by
  intro s t c f o hr hstep
  obtain ⟨hnot, -⟩ | ⟨-, e, hfetch, rfl⟩ | ⟨-, i, hfetch, hexec⟩ := step_cases hstep
  · exact absurd hr hnot
  · exact ⟨_, [], (List.append_nil _).symm, step_of_fetch_error hr hfetch, by simp [State.takeFault]⟩
  · have hstep' : step (s.withRecord c f o) = exec i (s.withRecord c f o) := step_of_fetch_ok hr hfetch
    obtain hc | ⟨op, hacc, hop, rfl⟩ := exec_next hexec
    · obtain ⟨added, hout, hc'⟩ := completes_withRecord c f o hc
      have hnot : ¬ t.Faulted := by
        rw [State.Faulted, completes_status hc, show s.status = .running from hr]
        split <;> decide
      refine ⟨_, added, hout, hstep'.trans (exec_of_completes hc'), ?_⟩
      rw [if_neg hnot, if_neg hnot]
      rfl
    · exact ⟨_, [], (List.append_nil _).symm, hstep'.trans (exec_of_firstInvalid hacc hop), by
        simp [State.takeFault, State.withRecord]⟩

/-! ## Reset (R23, R83) -/

/-- Settles O45: the reset state's elements, written out. -/
theorem resetValues : Obligations.ResetValues :=
  ⟨rfl, rfl, rfl, by decide, rfl, fun _ => rfl, rfl, rfl, rfl⟩

/-- Settles O46: the image's cells are read back by `State.byteAt_resetImage`, and a program makes an image exactly if it fits. -/
theorem resetLoadsTheImage : Obligations.ResetLoadsTheImage := by
  refine ⟨fun image a => State.byteAt_resetImage image a.isLt, fun _ => rfl, fun program hle =>
    ⟨_, Image.ofProgram_of_le hle, fun a => ?_⟩, fun program hgt => if_neg (by omega)⟩
  exact Vector.getElem_ofFn a.isLt

end Sys2Proof.Machine
end
